-- ==== Sys2Proof/Word.lean ====
section
/-! DEFINITION. The data types every other file is written over (00_scope.md R8, 10_state.md R20, R24). -/

namespace Sys2Proof

/-- A byte: every register value, memory cell, operand byte and the flags (00_scope.md R8). -/
abbrev Byte := BitVec 8

/-- A value of the program counter, 9 bits wide (10_state.md R24). -/
abbrev PcVal := BitVec 9

/-- The index of a general register, 0 to 7 (10_state.md R20). -/
abbrev Reg := Fin 8

end Sys2Proof
end

