-- ==== Sys2Proof/Syntax.lean ====
section
/-! DEFINITION. The fifteen instructions, one constructor per row of spec/opcode_table.json, in its order; their
operation names and formats (30_encoding.md R80, R86). -/

namespace Sys2Proof

/-- The mnemonics of 30_encoding.md R86. -/
inductive Op where
  | hlt | ldi | prn | push | pop | call | ret | add | mul | sub | div | cmp | jmp | jeq | jne
deriving DecidableEq, Repr

/-- The four formats of 30_encoding.md R80. -/
inductive Format where
  /-- the opcode alone -/
  | f0
  /-- opcode, register operand -/
  | f1
  /-- opcode, register operand, register operand -/
  | f2r
  /-- opcode, register operand, immediate -/
  | f2i
deriving DecidableEq, Repr

/-- An instruction: "a decoded view of 1–3 consecutive Memory bytes" (30_encoding.md R80). `opa` and `opb` are the
operand BYTES as fetched: a register operand is a byte that names a register only when it is 0 to 7 (R82, R83), which
WellFormed.lean checks. -/
inductive Instr where
  | hlt
  | ldi (opa imm : Byte)
  | prn (opa : Byte)
  | push (opa : Byte)
  | pop (opa : Byte)
  | call (opa : Byte)
  | ret
  | add (opa opb : Byte)
  | mul (opa opb : Byte)
  | sub (opa opb : Byte)
  | div (opa opb : Byte)
  | cmp (opa opb : Byte)
  | jmp (opa : Byte)
  | jeq (opa : Byte)
  | jne (opa : Byte)
deriving DecidableEq, Repr

/-- The fifteen operations, in the table's order. -/
def Op.all : List Op :=
  [.hlt, .ldi, .prn, .push, .pop, .call, .ret, .add, .mul, .sub, .div, .cmp, .jmp, .jeq, .jne]

/-- The format column of 30_encoding.md R86. -/
def Op.format : Op → Format
  | .hlt => .f0
  | .ldi => .f2i
  | .prn => .f1
  | .push => .f1
  | .pop => .f1
  | .call => .f1
  | .ret => .f0
  | .add => .f2r
  | .mul => .f2r
  | .sub => .f2r
  | .div => .f2r
  | .cmp => .f2r
  | .jmp => .f1
  | .jeq => .f1
  | .jne => .f1

/-- The five operations of the ALU (30_encoding.md R81, R84). -/
def Op.alu : List Op := [.add, .sub, .mul, .div, .cmp]

/-- The number of operand bytes of a format (30_encoding.md R80). -/
def Format.operands : Format → Nat
  | .f0 => 0
  | .f1 => 1
  | .f2r => 2
  | .f2i => 2

/-- The instruction's operation. -/
def Instr.op : Instr → Op
  | .hlt => .hlt
  | .ldi _ _ => .ldi
  | .prn _ => .prn
  | .push _ => .push
  | .pop _ => .pop
  | .call _ => .call
  | .ret => .ret
  | .add _ _ => .add
  | .mul _ _ => .mul
  | .sub _ _ => .sub
  | .div _ _ => .div
  | .cmp _ _ => .cmp
  | .jmp _ => .jmp
  | .jeq _ => .jeq
  | .jne _ => .jne

/-- The operand bytes, in the order of memory (30_encoding.md R96). -/
def Instr.operandBytes : Instr → List Byte
  | .hlt => []
  | .ldi opa imm => [opa, imm]
  | .prn opa => [opa]
  | .push opa => [opa]
  | .pop opa => [opa]
  | .call opa => [opa]
  | .ret => []
  | .add opa opb => [opa, opb]
  | .mul opa opb => [opa, opb]
  | .sub opa opb => [opa, opb]
  | .div opa opb => [opa, opb]
  | .cmp opa opb => [opa, opb]
  | .jmp opa => [opa]
  | .jeq opa => [opa]
  | .jne opa => [opa]

end Sys2Proof
end

