-- ==== Sys2Proof/Config.lean ====
section
/-! DEFINITION. The parameters of 00_scope.md R6: what the source fixes, as constants, and what it leaves open to the
configuration, as a structure. Its decided value is `Config.decided` and the check of its constraints `Config.valid`
(Decode.lean); FL_RESET and IMAGE are arguments of the launch (Machine/Loader.lean). -/

namespace Sys2Proof

/-- The configuration of a launch (00_scope.md R6). It is not state: no instruction reads or writes it (10_state.md
R37). -/
structure Config where
  /-- `SP_RESET`: what SP holds after reset; "the source fixes only `SP_RESET != 0`" -/
  spReset : Byte
  /-- `MEM_FILL`: what a cell that the loader did not write holds at the start of a run -/
  memFill : Byte
  /-- `OPCODES`: the opcode byte of each instruction, constrained by 30_encoding.md R84 -/
  opcodes : Op → Byte

/-- `MEM_SIZE`: the number of byte cells of the one address space (00_scope.md R6, 10_state.md R30). -/
abbrev Config.memSize : Nat := 256

/-- `SP_INDEX`: the register that the stack instructions address through (10_state.md R22). -/
abbrev Config.spIndex : Reg := 7

/-- `RESET_PC`: the constant entry point (70_reset_and_hazards.md R231). -/
def Config.resetPc : PcVal := 0

/-- DESIGN CHOICE (log entry 1): the value `State.reset` gives `FL`. The spec states none: FL_RESET is unspecified
(10_state.md R31), a free argument of `launch`, and "a simulator may take 0x00" (00_scope.md R6). No statement rests
on it. -/
def Config.flReset : Byte := 0x00

end Sys2Proof
end

