-- ==== Sys2Proof/WellFormed.lean ====
section
/-! DEFINITION. Well-formed instructions: the operand validation of 40_fetch_decode_execute_loop.md R120. -/

namespace Sys2Proof

/-- A byte that selects a register: bits 7:3 are zero (30_encoding.md R82, R83). -/
def isRegByte (b : Byte) : Bool := decide (b.toNat < 8)

/-- The operand bytes that stand in a register position: `opa` in F1, F2R and F2I, `opb` in F2R only
(40_fetch_decode_execute_loop.md R120). -/
def Instr.regBytes (i : Instr) : List Byte :=
  match i.op.format with
  | .f0 => []
  | .f1 => i.operandBytes
  | .f2r => i.operandBytes
  | .f2i => i.operandBytes.take 1

/-- Every register operand byte names a register. -/
def Instr.wf (i : Instr) : Bool := i.regBytes.all isRegByte

/-- `Instr.wf` as a proposition. -/
abbrev Instr.WellFormed (i : Instr) : Prop := i.wf = true

end Sys2Proof
end

