-- ==== Sys2Proof/Decode.lean ====
section
/-! DEFINITION. The decided configuration and its constraints, the decoder (total on any bytes, rejecting by name), the encoder, and the decoder on
the opcode table's words (30_encoding.md R80 to R95, 40_fetch_decode_execute_loop.md R118 to R120). -/

namespace Sys2Proof

/-- The decided opcode map (30_encoding.md R86; eleven of the values by decision D1, log entry 4). -/
def opcodeOf : Op → Byte
  | .hlt => 0x01
  | .ldi => 0x82
  | .prn => 0x47
  | .push => 0x45
  | .pop => 0x46
  | .call => 0x50
  | .ret => 0x11
  | .add => 0xA0
  | .mul => 0xA2
  | .sub => 0xA1
  | .div => 0xA3
  | .cmp => 0xA7
  | .jmp => 0x54
  | .jeq => 0x55
  | .jne => 0x56

/-- The decided value of the configuration: SP_RESET by decision D2 (log entry 3), MEM_FILL by decision D4 (log entry
2), OPCODES by 30_encoding.md R86. -/
def Config.decided : Config where
  spReset := 0xF4
  memFill := 0x00
  opcodes := opcodeOf

/-- `decode : byte -> mnemonic or Illegal`, a lookup of the whole byte in the configured table (30_encoding.md R88);
`none` is Illegal. -/
def decodeOpcode (c : Config) (b : Byte) : Option Op := Op.all.find? fun o => c.opcodes o == b

/-- `NOPS`, bits 7:6 of an opcode: how many operand bytes follow it (30_encoding.md R81, R89). -/
def nops (opcode : Byte) : Nat := (opcode.extractLsb' 6 2).toNat

/-- `ALU`, bit 5 of an opcode (30_encoding.md R81). -/
def aluBit (opcode : Byte) : Bool := opcode.getLsbD 5

/-- `SETSPC`, bit 4 of an opcode (30_encoding.md R81). -/
def setsPcBit (opcode : Byte) : Bool := opcode.getLsbD 4

/-- `ID`, bits 3:0 of an opcode (30_encoding.md R81). -/
def idField (opcode : Byte) : BitVec 4 := opcode.extractLsb' 0 4

/-- The check of a configuration: SP_RESET is not 0 (00_scope.md R6), and OPCODES meets the three conditions of
30_encoding.md R84: bits 7:6 are the operand count, bit 5 is set for exactly the ALU instructions, the values are
distinct. -/
def Config.valid (c : Config) : Bool :=
  c.spReset != 0 &&
  Op.all.all (fun o => nops (c.opcodes o) == o.format.operands && aluBit (c.opcodes o) == decide (o ∈ Op.alu)) &&
  decide (Op.all.map c.opcodes).Nodup

/-- `Config.valid` as a proposition. -/
abbrev Config.Valid (c : Config) : Prop := c.valid = true

/-- The instruction of an operation and its operand bytes; a format with fewer operands does not look at the others. -/
def Op.build (o : Op) (opa opb : Byte) : Instr :=
  match o with
  | .hlt => .hlt
  | .ldi => .ldi opa opb
  | .prn => .prn opa
  | .push => .push opa
  | .pop => .pop opa
  | .call => .call opa
  | .ret => .ret
  | .add => .add opa opb
  | .mul => .mul opa opb
  | .sub => .sub opa opb
  | .div => .div opa opb
  | .cmp => .cmp opa opb
  | .jmp => .jmp opa
  | .jeq => .jeq opa
  | .jne => .jne opa

/-- Why bytes are no instruction. -/
inductive DecodeError where
  /-- fewer bytes than the opcode asks for -/
  | truncated
  /-- the first byte is none of the configured opcodes (30_encoding.md R92) -/
  | illegalOpcode (opcode : Byte)
  /-- a register operand byte is above 7 (30_encoding.md R83) -/
  | illegalRegister
deriving DecidableEq, Repr

/-- The instruction at the head of a list of bytes, and the bytes after it. -/
def decode (c : Config) : List Byte → Except DecodeError (Instr × List Byte)
  | [] => .error .truncated
  | opcode :: rest =>
    match decodeOpcode c opcode with
    | none => .error (.illegalOpcode opcode)
    | some o =>
      if rest.length < nops opcode then .error .truncated
      else
        let i := o.build (rest.getD 0 0) (rest.getD 1 0)
        if i.wf then .ok (i, rest.drop (nops opcode)) else .error .illegalRegister

/-- The bytes of an instruction: opcode, then operands, ascending (30_encoding.md R80, 20_memory.md R55). -/
def encode (c : Config) (i : Instr) : List Byte := c.opcodes i.op :: i.operandBytes

/-- Byte `k` (0 is the one at the lowest address) of a word of the opcode table that has `nbits` bits. The table
numbers the FIRST byte as the most significant one ("bit_order" of each row; log entry 9); past the word the bytes
are zero. -/
def tableByte (nbits w k : Nat) : Byte :=
  let n := (nbits + 7) / 8
  if k < n then BitVec.ofNat 8 (w / 2 ^ (8 * (n - 1 - k))) else 0

/-- A word of the opcode table as the bytes in memory, up to the longest instruction (three bytes). -/
def tableBytes (nbits w : Nat) : List Byte := [tableByte nbits w 0, tableByte nbits w 1, tableByte nbits w 2]

/-- What the decoder reads from a word of the opcode table, whose words are of the decided opcode map. -/
def decodeTableWord (nbits w : Nat) : Option Instr :=
  match decode .decided (tableBytes nbits w) with
  | .ok (i, _) => some i
  | .error _ => none

end Sys2Proof
end

