-- ==== Sys2Proof/Machine/State.lean ====
section
/-! DEFINITION. The architectural state (10_state.md R36), its reset value (R35), and the reasons a step can stop. -/

namespace Sys2Proof.Machine

/-- The four fault causes of 60_exceptions.md R200: the `reason` inside `Faulted(reason)`. -/
inductive FaultCause where
  /-- an access address or the CALL return address is outside 0 to 255 (R201) -/
  | outOfBounds
  /-- DIV with a zero divisor (R202) -/
  | divisionByZero
  /-- the ALU was given a select outside its five operations; unreachable in the core (R203) -/
  | unsupportedOperation
  /-- an illegal opcode, or a register operand byte above 7 (R204) -/
  | illegalInstruction
deriving DecidableEq, Repr

/-- The run state (10_state.md R28). -/
inductive RunState where
  | running
  | halted
  | faulted (reason : FaultCause)
deriving DecidableEq, Repr

/-- Memory as (address, byte) pairs in the canonical form that `Memory.wf` states; what a cell not
listed reads as is `Memory.unlisted` (Machine/Ops.lean). -/
abbrev Memory := List Host.Cell

/-- The whole architectural state S = (x[0..7], pc, FL, run, M[0..255], OUT) of 10_state.md R36. -/
structure State where
  /-- the register file `x[0..7]` (R20); register 7 is SP (R22) -/
  regs : Vector Byte 8
  /-- the program counter, 0 to 256 (R24) -/
  pc : PcVal
  /-- the flags byte: E bit 0, G bit 1, L bit 2 (R27) -/
  fl : Byte
  /-- the run state (R28) -/
  run : RunState
  /-- the 256 memory cells (R30) -/
  mem : Memory
  /-- the output event stream, oldest first (R34) -/
  out : List Byte
deriving DecidableEq, Repr

/-- The reasons the MODEL stops. The core's own faults are not here: they are next states with
`run = Faulted(reason)` (60_exceptions.md R206; log entry 5). -/
inductive Fault where
  /-- Raised by `step` when `run` is Halted: "no step is defined" (40 R116, 10 R28). Safe: nothing runs (log entry 6). -/
  | noStepAfterHalt
  /-- Raised by `step` when `run` is Faulted: "no step is defined" (40 R116, 60 R209). Safe: nothing runs (log entry 6). -/
  | noStepAfterFault (reason : FaultCause)
deriving DecidableEq, Repr

/-- The reasons the model refuses an instruction. -/
inductive Refusal where
  /-- Raised by an arm of `exec` for an instruction without a meaning. No arm of this model raises it. Safe. -/
  | notModelled (mnemonic : String)
deriving DecidableEq, Repr

/-- What an instruction or a step answers. -/
abbrev Result := Host.Outcome State Fault Refusal

/-- The state right after reset at the decided configuration (10_state.md R35): no program is loaded, so memory lists
nothing; `launch` (Machine/Loader.lean) is the reset of every configuration and program. `FL` has no
reset value in the spec: DESIGN CHOICE, log entry 1. -/
def State.reset : State where
  regs := #v[0, 0, 0, 0, 0, 0, 0, Config.decided.spReset]
  pc := Config.resetPc
  fl := Config.flReset
  run := .running
  mem := []
  out := []

end Sys2Proof.Machine
end

