-- ==== Sys2Proof/Machine/Ops.lean ====
section
/-! DEFINITION. The named operations over registers, memory, the program counter and the output, and what raising a
fault does: the pseudocode primitives of 00_scope.md R9. -/

namespace Sys2Proof.Machine

/-! ## Registers -/

/-- `x[r]` (00_scope.md R9). No register is hard-wired (10_state.md R21). -/
def State.x (s : State) (r : Reg) : Byte := s.regs[r]

/-- `x[r] <- v`. -/
def State.setReg (s : State) (r : Reg) (v : Byte) : State := { s with regs := s.regs.set r v }

/-- `SP`, another spelling of `x[7]` (10_state.md R22). -/
def State.sp (s : State) : Byte := s.x Config.spIndex

/-- `FL <- v`, the whole byte. -/
def State.setFl (s : State) (v : Byte) : State := { s with fl := v }

/-- `run <- v`. -/
def State.setRun (s : State) (v : RunState) : State := { s with run := v }

/-- `emit(v)`: append to the output event stream (10_state.md R34). -/
def State.emit (s : State) (v : Byte) : State := { s with out := s.out ++ [v] }

/-! ## The program counter -/

/-- `pc <- v`. -/
def State.setPc (s : State) (v : PcVal) : State := { s with pc := v }

/-- A byte zero-extended to the 9 bits of pc (40_fetch_decode_execute_loop.md R122). -/
def byteToPc (b : Byte) : PcVal := b.setWidth 9

/-- `pc <- p + n`, computed in 9 bits (10_state.md R26, 40_fetch_decode_execute_loop.md R122). -/
def State.advance (s : State) (n : Nat) : State := s.setPc (s.pc + BitVec.ofNat 9 n)

/-- `pc <- t` with t a byte (40_fetch_decode_execute_loop.md R122, 44_control_transfer.md R180). -/
def State.jump (s : State) (t : Byte) : State := s.setPc (byteToPc t)

/-! ## Memory -/

/-- What an unlisted address reads as: the decided MEM_FILL, so that `State.reset` lists nothing (log entry 2). It only
fixes how a memory is written down; a launch with another MEM_FILL lists the cells it fills. -/
def Memory.unlisted : Byte := Config.decided.memFill

/-- The canonical form: addresses strictly rising and below 256, no entry equal to what an unlisted
address reads as. -/
abbrev Memory.wf (m : Memory) : Prop :=
  m.Pairwise (fun c d => c.1 < d.1) ∧ ∀ c ∈ m, c.1 < Config.memSize ∧ c.2 ≠ Memory.unlisted

/-- The byte a memory holds at an address. -/
def Memory.read : Memory → Nat → Byte
  | [], _ => Memory.unlisted
  | (b, w) :: m, a => if a = b then w else Memory.read m a

/-- Puts a cell at its place in rising order, over an older cell of the same address. -/
def Memory.put : Memory → Nat → Byte → Memory
  | [], a, v => [(a, v)]
  | (b, w) :: m, a, v =>
    if a < b then (a, v) :: (b, w) :: m
    else if a = b then (a, v) :: m
    else (b, w) :: Memory.put m a v

/-- Writes one cell and keeps the canonical form: a cell that reads like an unlisted one is not
listed. -/
def Memory.write (m : Memory) (a : Nat) (v : Byte) : Memory :=
  if v = Memory.unlisted then m.filter (fun c => c.1 != a) else Memory.put m a v

/-- Writes bytes at ascending addresses from `a`; addresses outside the memory take none. -/
def Memory.store : Memory → Nat → List Byte → Memory
  | m, _, [] => m
  | m, a, v :: vs => Memory.store (if a < Config.memSize then Memory.write m a v else m) (a + 1) vs

/-- `M[a]`. -/
def State.byteAt (s : State) (a : Nat) : Byte := Memory.read s.mem a

/-- `M[a] <- v`. -/
def State.setByte (s : State) (a : Nat) (v : Byte) : State := { s with mem := Memory.write s.mem a v }

/-- `MemRead(a, 1)`: in range, or `OutOfBounds`; never reduced modulo 256 (20_memory.md R52). -/
def memRead (s : State) (a : Nat) : Except FaultCause Byte :=
  if a < Config.memSize then .ok (s.byteAt a) else .error .outOfBounds

/-- `MemWrite(a, 1, v)`: in range, or `OutOfBounds` and nothing written (20_memory.md R53). -/
def memWrite (s : State) (a : Nat) (v : Byte) : Except FaultCause State :=
  if a < Config.memSize then .ok (s.setByte a v) else .error .outOfBounds

/-! ## Faults -/

/-- `raise F` (60_exceptions.md R206): given the state in which the step began, every write of the step is
suppressed, pc included, and the run state becomes `Faulted(F)`. Nothing is saved, no handler runs. There is no return
beside it: "There is no return from a fault" (R209). -/
def raise (f : FaultCause) (s : State) : Result := .next (s.setRun (.faulted f))

/-- Ends an instruction that began in `s`: the state its accesses built, finished by `k`, or the fault they met,
raised on the state at the beginning (00_scope.md R9, 60_exceptions.md R206). -/
def complete (s : State) (built : Except FaultCause State) (k : State → State) : Result :=
  match built with
  | .ok t => .next (k t)
  | .error f => raise f s

/-! ## The stack (42_stack.md R150, R153) -/

/-- The cell a push from `s` writes: SP after its decrement, which wraps modulo 256 (42_stack.md R151, R153). -/
def pushAddr (s : State) : Nat := (s.sp - 1).toNat

/-- A push: SP is decremented, then `val` of the state with the new SP is written at the new SP, which is `pushAddr` of
the state before (42_stack.md R151, R154). -/
def push (val : State → Byte) (s : State) : Except FaultCause State :=
  let d := s.setReg Config.spIndex (s.sp - 1)
  memWrite d (pushAddr s) (val d)

/-- A pop: the byte at SP goes where `put` puts it, then SP, as it is by then, is incremented (42_stack.md R152,
R154; 44_control_transfer.md R184). -/
def pop (put : Byte → State → State) (s : State) : Except FaultCause State :=
  match memRead s s.sp.toNat with
  | .ok v =>
    let u := put v s
    .ok (u.setReg Config.spIndex (u.sp + 1))
  | .error f => .error f

end Sys2Proof.Machine
end

