-- ==== Sys2Proof/Machine/Flags.lean ====
section
/-! DEFINITION. The flags byte: what CMP computes and what JEQ and JNE read (10_state.md R27, 43_alu.md R166). -/

namespace Sys2Proof.Machine

/-- E, bit 0: the last CMP found its operands equal (10_state.md R27). -/
def flagE (fl : Byte) : Bool := fl.getLsbD 0

/-- G, bit 1: the last CMP found the first operand greater, unsigned (10_state.md R27). -/
def flagG (fl : Byte) : Bool := fl.getLsbD 1

/-- L, bit 2: the last CMP found the first operand less, unsigned (10_state.md R27). -/
def flagL (fl : Byte) : Bool := fl.getLsbD 2

/-- The flags byte CMP writes: all eight bits, exactly one of E, G, L set, bits 7:3 zero (43_alu.md R166). -/
def compareFlags (a b : Byte) : Byte :=
  if a = b then 0b00000001
  else if a.toNat > b.toNat then 0b00000010
  else 0b00000100

end Sys2Proof.Machine
end

