-- ==== Sys2Proof/Machine/Operands.lean ====
section
/-! DEFINITION. Operand forms. A register operand is a byte that selects the register of its value (30_encoding.md
R82); a byte above 7 makes the instruction illegal (R83). LDI's immediate is the operand byte itself (R85). -/

namespace Sys2Proof.Machine

/-- The register an operand byte selects; none above 7, never masked (30_encoding.md R82, R83). -/
def regOf (b : Byte) : Option Reg := if h : b.toNat < 8 then some ⟨b.toNat, h⟩ else none

/-- The operand byte that selects a register (30_encoding.md R82). -/
def regByte (r : Reg) : Byte := BitVec.ofNat 8 r.val

/-- Runs `k` on the register the operand names, or raises `IllegalInstruction` before any effect (30_encoding.md R83,
40_fetch_decode_execute_loop.md R120). -/
def withReg (opa : Byte) (s : State) (k : Reg → Result) : Result :=
  match regOf opa with
  | some r => k r
  | none => raise .illegalInstruction s

/-- Two register operands, `opa` checked before `opb` (60_exceptions.md R208). -/
def withRegs (opa opb : Byte) (s : State) (k : Reg → Reg → Result) : Result :=
  withReg opa s fun a => withReg opb s fun b => k a b

end Sys2Proof.Machine
end

