-- ==== Sys2Proof/Machine/Alu.lean ====
section
/-! DEFINITION. The `8bit_alu` block (40_fetch_decode_execute_loop.md R124, R126) and the five instructions that use
it: ADD, MUL, SUB, DIV, CMP (43_alu.md). -/

namespace Sys2Proof.Machine

/-- What the ALU puts out. -/
inductive AluOut where
  /-- a result byte for `x[opa]` -/
  | result (v : Byte)
  /-- a flags byte for `FL` -/
  | flags (v : Byte)
  /-- the divide-by-zero indication -/
  | divideByZero
  /-- `UnsupportedOperation`: the select is none of the five -/
  | unsupported
deriving DecidableEq, Repr

/-- The operation selects of 40_fetch_decode_execute_loop.md R124, low nibbles of the decided opcodes (log entry 4); they
stand at every configuration (DEDUCED, log entry 13). -/
def selAdd : BitVec 4 := 0b0000
/-- See `selAdd`. -/
def selSub : BitVec 4 := 0b0001
/-- See `selAdd`. -/
def selMul : BitVec 4 := 0b0010
/-- See `selAdd`. -/
def selDiv : BitVec 4 := 0b0011
/-- See `selAdd`. -/
def selCmp : BitVec 4 := 0b0111

/-- The combinational ALU, total over its select (40_fetch_decode_execute_loop.md R124, R126): unsigned, wrapping
modulo 256, floor division (43_alu.md R160, R161, R169). -/
def alu (sel : BitVec 4) (a b : Byte) : AluOut :=
  if sel = selAdd then .result (a + b)
  else if sel = selSub then .result (a - b)
  else if sel = selMul then .result (a * b)
  else if sel = selDiv then (if b = 0 then .divideByZero else .result (a / b))
  else if sel = selCmp then .flags (compareFlags a b)
  else .unsupported

/-- What the loop does with the ALU's output: the result to `x[a]` or the flags to `FL`, never both, and pc past the
three bytes; or the fault, before any write (40_fetch_decode_execute_loop.md R124, 43_alu.md R165). -/
def aluFinish (a : Reg) (s : State) : AluOut → Result
  | .result v => .next ((s.setReg a v).advance 3)
  | .flags v => .next ((s.setFl v).advance 3)
  | .divideByZero => raise .divisionByZero s
  | .unsupported => raise .unsupportedOperation s

/-- An ALU instruction: both operands are read before the write (43_alu.md R167). -/
def aluInstr (sel : BitVec 4) (opa opb : Byte) (s : State) : Result :=
  withRegs opa opb s fun a b => aluFinish a s (alu sel (s.x a) (s.x b))

/-- ADD a, b (43_alu.md R162). -/
def execAdd (opa opb : Byte) (s : State) : Result := aluInstr selAdd opa opb s

/-- MUL a, b (43_alu.md R164). -/
def execMul (opa opb : Byte) (s : State) : Result := aluInstr selMul opa opb s

/-- SUB a, b (43_alu.md R163). -/
def execSub (opa opb : Byte) (s : State) : Result := aluInstr selSub opa opb s

/-- DIV a, b (43_alu.md R165). -/
def execDiv (opa opb : Byte) (s : State) : Result := aluInstr selDiv opa opb s

/-- CMP a, b (43_alu.md R166). -/
def execCmp (opa opb : Byte) (s : State) : Result := aluInstr selCmp opa opb s

end Sys2Proof.Machine
end

