-- ==== Sys2Proof/Machine/Control.lean ====
section
/-! DEFINITION. CALL, RET, JMP, JEQ, JNE (44_control_transfer.md). -/

namespace Sys2Proof.Machine

/-- The address of the instruction after a two-byte one, as an unbounded integer (00_scope.md R8). -/
def returnAddr (s : State) : Nat := s.pc.toNat + 2

/-- CALL r (44_control_transfer.md R182): the return address is checked before any write (R190); pc is read from the
register after the push, so `CALL R7` goes to the decremented SP (R183). -/
def execCall (opa : Byte) (s : State) : Result :=
  withReg opa s fun r =>
    if returnAddr s > 255 then raise .outOfBounds s
    else complete s (push (fun _ => BitVec.ofNat 8 (returnAddr s)) s) fun t => t.jump (t.x r)

/-- RET (44_control_transfer.md R184): pc is not advanced after the pop. -/
def execRet (s : State) : Result := complete s (pop (fun v u => u.jump v) s) fun t => t

/-- Jumps to the register's value if `taken`, else goes past the two bytes. -/
def jumpIf (taken : Bool) (r : Reg) (s : State) : Result :=
  .next (if taken then s.jump (s.x r) else s.advance 2)

/-- JMP r (44_control_transfer.md R181). -/
def execJmp (opa : Byte) (s : State) : Result := withReg opa s fun r => jumpIf true r s

/-- JEQ r (44_control_transfer.md R185): only E is read. -/
def execJeq (opa : Byte) (s : State) : Result := withReg opa s fun r => jumpIf (flagE s.fl) r s

/-- JNE r (44_control_transfer.md R186): E clear, not "G or L set". -/
def execJne (opa : Byte) (s : State) : Result := withReg opa s fun r => jumpIf (!flagE s.fl) r s

end Sys2Proof.Machine
end

