-- ==== Sys2Proof/Machine/Stack.lean ====
section
/-! DEFINITION. PUSH and POP (42_stack.md). -/

namespace Sys2Proof.Machine

/-- PUSH r (42_stack.md R151): the register is read after the decrement of SP, so `PUSH R7` stores the new SP (R154). -/
def execPush (opa : Byte) (s : State) : Result :=
  withReg opa s fun r => complete s (push (fun d => d.x r) s) fun t => t.advance 2

/-- POP r (42_stack.md R152): SP is incremented after the register is written, so `POP R7` ends one above the popped
value (R154). -/
def execPop (opa : Byte) (s : State) : Result :=
  withReg opa s fun r => complete s (pop (fun v u => u.setReg r v) s) fun t => t.advance 2

end Sys2Proof.Machine
end

