-- ==== Sys2Proof/Machine/System.lean ====
section
/-! DEFINITION. HLT, LDI, PRN (41_system_and_data.md). -/

namespace Sys2Proof.Machine

/-- HLT (41_system_and_data.md R141). -/
def execHlt (s : State) : Result := .next ((s.setRun .halted).advance 1)

/-- LDI r, imm (41_system_and_data.md R142). -/
def execLdi (opa imm : Byte) (s : State) : Result :=
  withReg opa s fun r => .next ((s.setReg r imm).advance 3)

/-- PRN r (41_system_and_data.md R143): the output sink always accepts. -/
def execPrn (opa : Byte) (s : State) : Result :=
  withReg opa s fun r => .next ((s.emit (s.x r)).advance 2)

end Sys2Proof.Machine
end

