-- ==== Sys2Proof/Machine/Fetch.lean ====
section
/-! DEFINITION. The phases of a step before execution: fetch, decode, operand fetch, operand validation
(40_fetch_decode_execute_loop.md R116 to R120). -/

namespace Sys2Proof.Machine

/-- The `k`-th operand byte of an instruction with `n` operands; a byte beyond the n-th is not read
(40_fetch_decode_execute_loop.md R119, 30_encoding.md R95). -/
def fetchOperand (s : State) (n k : Nat) : Except FaultCause Byte :=
  if k ≤ n then memRead s (s.pc.toNat + k) else .ok 0

/-- The instruction at pc by the configured opcode map, or the first fault met in the order of 60_exceptions.md R208. -/
def fetch (c : Config) (s : State) : Except FaultCause Instr :=
  match memRead s s.pc.toNat with
  | .error f => .error f
  | .ok opcode =>
    match decodeOpcode c opcode with
    | none => .error .illegalInstruction
    | some o =>
      match fetchOperand s (nops opcode) 1 with
      | .error f => .error f
      | .ok opa =>
        match fetchOperand s (nops opcode) 2 with
        | .error f => .error f
        | .ok opb =>
          if (o.build opa opb).wf then .ok (o.build opa opb) else .error .illegalInstruction

end Sys2Proof.Machine
end

