-- ==== Sys2Proof/Machine/Step.lean ====
section
/-! DEFINITION. One step of the core (40_fetch_decode_execute_loop.md R116). -/

namespace Sys2Proof.Machine

/-- A step is defined only when `run = Running`; it fetches, decodes and validates the instruction at pc and executes
it, or raises the first fault it meets (40_fetch_decode_execute_loop.md R116, 60_exceptions.md R208). Of the
configuration only the opcode map matters. -/
def stepWith (c : Config) (s : State) : Host.Outcome State Fault Refusal :=
  match s.run with
  | .halted => .fault .noStepAfterHalt
  | .faulted f => .fault (.noStepAfterFault f)
  | .running =>
    match fetch c s with
    | .error f => raise f s
    | .ok i => exec i s

/-- The step at the decided configuration. -/
def step (s : State) : Host.Outcome State Fault Refusal := stepWith .decided s

/-- The state with an instruction of the opcode table stored where `step` fetches next, at pc and the two bytes after
it, and the core released (log entry 10). Bytes past address 255 have no cell: from a pc of 254 or more a three-byte
instruction does not fit, as on the hardware. -/
def State.withFetchWord (s : State) (nbits w : Nat) : State :=
  { s with run := .running, mem := Memory.store s.mem s.pc.toNat (tableBytes nbits w) }

end Sys2Proof.Machine
end

