-- ==== Sys2Proof/Machine/Loader.lean ====
section
/-! DEFINITION. The host's side of a launch: the program image text format (30_encoding.md R100 to R102) and the state
in which a run starts (70_reset_and_hazards.md R230 to R234). No step of the core calls anything here. -/

namespace Sys2Proof.Machine

/-- `IMAGE`: the program's bytes from address 0 upward and `MEM_FILL` in every cell after them
(70_reset_and_hazards.md R233); bytes past the 256th have no cell (log entry 12). -/
def imageOf (c : Config) (program : List Byte) : List Byte :=
  program.take Config.memSize ++ List.replicate (Config.memSize - program.length) c.memFill

/-- The launch of 70_reset_and_hazards.md R233, determined by the configuration, the program and FL_RESET: the reset
table (10_state.md R35) with SP at the configured SP_RESET, memory holding IMAGE, and `FL` at the free argument
(R31). It is also what asserting `rst` and loading again does: nothing of the earlier run is carried over (R230). -/
def launch (c : Config) (program : List Byte) (flReset : Byte) : State :=
  { (State.reset.setReg Config.spIndex c.spReset).setFl flReset with mem := Memory.store [] 0 (imageOf c program) }

/-- The loader's one error (60_exceptions.md R211); the core never raises it. -/
inductive LoadError where
  | malformedProgram
deriving DecidableEq, Repr

/-- The value of a token of base-2 digits, most significant first; none for any other character (30_encoding.md R101). -/
def parseBinary : List Char → Nat → Option Nat
  | [], acc => some acc
  | c :: cs, acc =>
    if c = '0' then parseBinary cs (2 * acc)
    else if c = '1' then parseBinary cs (2 * acc + 1)
    else none

/-- Drops white space at both ends (log entry 11). -/
def trimChars (cs : List Char) : List Char :=
  ((cs.dropWhile Char.isWhitespace).reverse.dropWhile Char.isWhitespace).reverse

/-- One line: the comment after `#` is stripped, white space trimmed, an empty rest skipped, and a token is a base-2
value of 0 to 255 (30_encoding.md R101, R102). -/
def parseLine (line : List Char) : Except LoadError (Option Byte) :=
  match trimChars (line.takeWhile (· ≠ '#')) with
  | [] => .ok none
  | token =>
    match parseBinary token 0 with
    | some v => if v < 256 then .ok (some (BitVec.ofNat 8 v)) else .error .malformedProgram
    | none => .error .malformedProgram

/-- The bytes of an image, one line at a time. -/
def parseLines : List (List Char) → Except LoadError (List Byte)
  | [] => .ok []
  | line :: lines =>
    match parseLine line, parseLines lines with
    | .ok none, .ok vs => .ok vs
    | .ok (some v), .ok vs => .ok (v :: vs)
    | .error e, _ => .error e
    | _, .error e => .error e

/-- The lines of a text. -/
def splitLines : List Char → List (List Char)
  | [] => [[]]
  | c :: cs =>
    if c = '\n' then [] :: splitLines cs
    else
      match splitLines cs with
      | [] => [[c]]
      | l :: ls => (c :: l) :: ls

/-- The program of an image text; the 257th value is `MalformedProgram` (30_encoding.md R102). -/
def parseImage (text : List Char) : Except LoadError (List Byte) :=
  match parseLines (splitLines text) with
  | .ok vs => if vs.length ≤ Config.memSize then .ok vs else .error .malformedProgram
  | .error e => .error e

/-- Load and start: a run exists only when the whole image loads (30_encoding.md R102, 70_reset_and_hazards.md R234). -/
def loadText (c : Config) (text : List Char) (flReset : Byte) : Except LoadError State :=
  match parseImage text with
  | .ok program => .ok (launch c program flReset)
  | .error e => .error e

end Sys2Proof.Machine
end

