-- ==== Sys2Proof/Machine/Ports.lean ====
section
/-! DEFINITION. What the host observes, as functions of the state (40_fetch_decode_execute_loop.md R111): reading them
changes nothing (70_reset_and_hazards.md R244). -/

namespace Sys2Proof.Machine

/-- The fault code numbers (60_exceptions.md R200, R205). -/
def FaultCause.code : FaultCause → BitVec 3
  | .outOfBounds => 1
  | .divisionByZero => 2
  | .unsupportedOperation => 3
  | .illegalInstruction => 4

/-- The `halted` output; also the source's "Halted flag" (10_state.md R29). -/
def State.haltedPort (s : State) : Bool := decide (s.run = .halted)

/-- The `faulted` output. -/
def State.faultedPort (s : State) : Bool :=
  match s.run with
  | .faulted _ => true
  | .running => false
  | .halted => false

/-- The `fault_code` output, 0 when not faulted. -/
def State.faultCodePort (s : State) : BitVec 3 :=
  match s.run with
  | .faulted f => f.code
  | .running => 0
  | .halted => 0

/-- `prn_valid` and `prn_data` of the step from `s`: the byte the step emits, if it emits one. -/
def prnPort (c : Config) (s : State) : Option Byte :=
  match stepWith c s with
  | .next t => (t.out.drop s.out.length).head?
  | .fault _ => none
  | .refused _ => none

/-- The decimal digits and line feed the output collaborator prints for a value (41_system_and_data.md R144). -/
def renderPrn (v : Byte) : List Char := Nat.toDigits 10 v.toNat ++ ['\n']

/-- The diagnostics view (60_exceptions.md R222): pc, FL, the next three memory bytes, the registers. -/
structure Trace where
  pc : PcVal
  fl : Byte
  next : List Byte
  regs : Vector Byte 8
deriving DecidableEq, Repr

/-- `trace(S)`; a memory byte whose address exceeds 255 is omitted (60_exceptions.md R222). -/
def State.trace (s : State) : Trace where
  pc := s.pc
  fl := s.fl
  next := (([0, 1, 2].map (s.pc.toNat + ·)).filter (· < Config.memSize)).map s.byteAt
  regs := s.regs

end Sys2Proof.Machine
end

