-- ==== Sys2Proof/Machine/Run.lean ====
section
/-! DEFINITION. A run under fuel (40_fetch_decode_execute_loop.md R123, 70_reset_and_hazards.md R240, R243). -/

namespace Sys2Proof.Machine

/-- What a bounded run reports. The machine has no time-out, so the third is an outcome of the executor and no state of
the machine (70_reset_and_hazards.md R243). -/
inductive RunOutcome where
  /-- the run ended well: it reached Halted, in this state (R240, R241) -/
  | halted (last : State)
  /-- the run ended badly: it reached Faulted for this reason, in this state (R240, R242) -/
  | faulted (reason : FaultCause) (last : State)
  /-- the run is still Running after all the steps it was given, in this state (R243) -/
  | stillRunning (reached : State)
deriving DecidableEq, Repr

/-- The outcome a state stands for when a run is left there (70_reset_and_hazards.md R240). -/
def RunOutcome.of (s : State) : RunOutcome :=
  match s.run with
  | .halted => .halted s
  | .faulted f => .faulted f s
  | .running => .stillRunning s

/-- A run of at most `k` steps: it goes on while a step is defined (40_fetch_decode_execute_loop.md R123). -/
def runFor (c : Config) : Nat → State → RunOutcome
  | 0, s => .of s
  | k + 1, s =>
    match stepWith c s with
    | .next t => runFor c k t
    | .fault _ => .of s
    | .refused _ => .of s

end Sys2Proof.Machine
end

