-- ==== Sys2Proof/Safety.lean ====
section
/-! DEFINITION. What counts as a good state and a good run, in the terms the statements use. -/

namespace Sys2Proof.Machine

/-- The invariant of a run: pc is 0 to 256 (10_state.md R24, R26) and memory is in its canonical form. -/
def Invariant (s : State) : Prop := s.pc.toNat ≤ 256 ∧ Memory.wf s.mem

/-- The bytes from address `p` to 255 of a memory that reads as `read`. -/
def bytesFrom (p : Nat) (read : Nat → Byte) : List Byte := (List.range' p (256 - p)).map read

/-- The bytes of memory from pc to address 255: what a decoder at pc can read. -/
def State.codeAt (s : State) : List Byte := bytesFrom s.pc.toNat s.byteAt

/-- What the core does in `s` with bytes to decode: it runs the instruction they decode to; missing bytes are
OutOfBounds, every other failure is IllegalInstruction (60_exceptions.md R201, R204). -/
def actOn (c : Config) (bytes : List Byte) (s : State) : Result :=
  match decode c bytes with
  | .ok (i, _) => exec i s
  | .error .truncated => raise .outOfBounds s
  | .error (.illegalOpcode _) => raise .illegalInstruction s
  | .error .illegalRegister => raise .illegalInstruction s

/-- The opcode byte at pc. -/
def State.opcode (s : State) : Byte := s.byteAt s.pc.toNat

/-- The operation at pc, if its byte is one of the decided opcodes (30_encoding.md R86, R88). -/
def State.opAt (s : State) : Option Op := decodeOpcode .decided s.opcode

/-- The byte after the opcode. -/
def State.opa (s : State) : Byte := s.byteAt (s.pc.toNat + 1)

/-- The second byte after the opcode. -/
def State.opb (s : State) : Byte := s.byteAt (s.pc.toNat + 2)

/-- Every register but those listed is unchanged. -/
def SameRegsBut (changed : List Reg) (s t : State) : Prop := ∀ r : Reg, r ∉ changed → t.x r = s.x r

/-- Every byte of memory is unchanged. -/
def SameMem (s t : State) : Prop := ∀ a : Nat, t.byteAt a = s.byteAt a

/-- Every byte of memory but the one at an address is unchanged. -/
def SameMemBut (changed : Nat) (s t : State) : Prop := ∀ a : Nat, a ≠ changed → t.byteAt a = s.byteAt a

/-- The flags byte, the run state and the output stream are unchanged. -/
def SameControl (s t : State) : Prop := t.fl = s.fl ∧ t.run = s.run ∧ t.out = s.out

/-- `t` is `s` after a fault of cause `f`: nothing but the run state differs (60_exceptions.md R206). -/
def FaultedFrom (f : FaultCause) (s t : State) : Prop :=
  t.run = .faulted f ∧ t.regs = s.regs ∧ t.pc = s.pc ∧ t.fl = s.fl ∧ t.mem = s.mem ∧ t.out = s.out

/-- What the arithmetic instructions leave: `x[a]` holds `v`, pc is past the three bytes, nothing else differs
(43_alu.md R162 to R165). -/
def ArithLeaves (a : Reg) (v : Nat) (s t : State) : Prop :=
  (t.x a).toNat = v ∧ t.pc = s.pc + 3 ∧ SameRegsBut [a] s t ∧ SameMem s t ∧ SameControl s t

/-- The lowest pc from which an instruction of a format has a byte at address 256 or above (41_system_and_data.md
R140). -/
def firstOutOfBounds : Format → Nat
  | .f0 => 256
  | .f1 => 255
  | .f2r => 254
  | .f2i => 254

/-- A register operand byte of the instruction at pc is above 7: `opa` in every format that has one, `opb` in F2R
(40_fetch_decode_execute_loop.md R120). -/
def State.BadOperand (s : State) (o : Op) : Prop :=
  (o.format ≠ .f0 ∧ 7 < s.opa.toNat) ∨ (o.format = .f2r ∧ 7 < s.opb.toNat)

/-- The common faults of an operation (41_system_and_data.md R140), at the level of a step: OutOfBounds if a byte of
the instruction lies at 256 or above, IllegalInstruction if a register operand byte is above 7, before any effect. -/
def CommonFaults (o : Op) : Prop :=
  (∀ s : State, s.run = .running → firstOutOfBounds o.format ≤ s.pc.toNat → s.pc.toNat ≤ 256 →
      (s.pc.toNat = 256 ∨ s.opAt = some o) → ∃ t, step s = .next t ∧ FaultedFrom .outOfBounds s t) ∧
  (∀ s : State, s.run = .running → s.pc.toNat < firstOutOfBounds o.format → s.opAt = some o → s.BadOperand o →
      ∃ t, step s = .next t ∧ FaultedFrom .illegalInstruction s t)

/-- `t` is reached from `s` by exactly `n` steps. -/
inductive StepsIn (c : Config) (s : State) : Nat → State → Prop where
  | refl : StepsIn c s 0 s
  | tail {n : Nat} {t u : State} : StepsIn c s n t → stepWith c t = .next u → StepsIn c s (n + 1) u

/-- `t` is reached from `s` by some number of steps. -/
def Steps (c : Config) (s t : State) : Prop := ∃ n, StepsIn c s n t

/-- A run from `s` ends well: it reaches Halted (70_reset_and_hazards.md R240). -/
def EndsWell (c : Config) (s : State) : Prop := ∃ t, Steps c s t ∧ t.run = .halted

/-- A run from `s` ends badly: it reaches Faulted (70_reset_and_hazards.md R240). -/
def EndsBadly (c : Config) (s : State) : Prop := ∃ t f, Steps c s t ∧ t.run = .faulted f

/-- A run from `s` never ends: after every number of steps it is still Running (70_reset_and_hazards.md R243). -/
def NeverEnds (c : Config) (s : State) : Prop := ∀ n, ∃ t, StepsIn c s n t ∧ t.run = .running

end Sys2Proof.Machine
end

