-- ==== Sys2Proof/Certificates/Slice0/Obligations.lean ====
section
/-! DEFINITION. The statements for the provers. Each docstring names the rules of spec/ it formalises. -/

open Sys2Proof Sys2Proof.Machine

/-! ## Encoding and decoding -/

/-- A sanity check of the decoder on words written out from the spec: the source's own words (95_test_vectors.md S1,
S2) and one word for each other family. -/
def Obligations.WrittenOutWordsDecode : Prop :=
  decode .decided [0b10000010, 0b00000000, 0b00001000] = .ok (.ldi 0 8, []) ∧
  decode .decided [0b10100010, 0b00000000, 0b00000001] = .ok (.mul 0 1, []) ∧
  decode .decided [0b01000111, 0b00000000] = .ok (.prn 0, []) ∧
  decode .decided [0b00000001] = .ok (.hlt, []) ∧
  decode .decided [0b01000101, 0b00000011] = .ok (.push 3, []) ∧
  decode .decided [0b01010000, 0b00000001] = .ok (.call 1, []) ∧
  decode .decided [0b00010001] = .ok (.ret, []) ∧
  decode .decided [0b10100111, 0b00000010, 0b00000101] = .ok (.cmp 2 5, [])

/-- Decode and encode agree, whatever valid opcode map is configured: the decoder gives every well-formed instruction
back, whatever bytes follow it, which it leaves unread (30_encoding.md R80, R82, R84, R85, R89, R95). -/
def Obligations.DecodeOfEncode : Prop :=
  ∀ (c : Config) (i : Instr) (rest : List Byte), c.Valid → i.WellFormed → decode c (encode c i ++ rest) = .ok (i, rest)

/-- The other direction, whatever valid opcode map is configured: what decodes is a well-formed instruction, and its
encoding is exactly the bytes read, so each word has one meaning and no bit is a don't-care (30_encoding.md R84, R88,
R93). -/
def Obligations.EncodeOfDecode : Prop :=
  ∀ (c : Config) (bytes rest : List Byte) (i : Instr), c.Valid → decode c bytes = .ok (i, rest) →
    i.WellFormed ∧ encode c i ++ rest = bytes

/-- R88, for the decided opcode map and for every other valid one: the decoder answers the row whose opcode equals the
byte in all 8 bits, and Illegal for every other byte. -/
def Obligations.OpcodeLookupIsExact : Prop :=
  Config.decided.Valid ∧ ∀ c : Config, c.Valid →
    (∀ (b : Byte) (o : Op), decodeOpcode c b = some o ↔ c.opcodes o = b) ∧
    (∀ b : Byte, decodeOpcode c b = none ↔ ∀ o : Op, c.opcodes o ≠ b)

/-- The check of a configuration says what 00_scope.md R6 and 30_encoding.md R84 (which the spec marks as derived from
R81) ask, and the decided values (decisions D1, D2) pass it: SP_RESET is not 0; bits 7:6 of each opcode are its operand
count, bit 5 is set for exactly the five ALU instructions, and the fifteen values are distinct. -/
def Obligations.OpcodeMapMeetsItsConstraint : Prop :=
  Config.decided.Valid ∧ ∀ c : Config, c.Valid ↔
    c.spReset ≠ 0 ∧
    (∀ o : Op, nops (c.opcodes o) = o.format.operands) ∧
    (∀ o : Op, aluBit (c.opcodes o) = true ↔ o ∈ [Op.add, Op.sub, Op.mul, Op.div, Op.cmp]) ∧
    (∀ o o' : Op, c.opcodes o = c.opcodes o' → o = o')

/-- The spec's decision D6 (30_encoding.md R83), whatever valid opcode map is configured: a byte of 8 to 255 in any
register position makes the bytes no instruction, whichever register position it is and whatever the other bytes are. -/
def Obligations.RegisterBytesAboveSevenDoNotDecode : Prop :=
  ∀ (c : Config) (o : Op) (opa opb : Byte) (rest : List Byte), c.Valid →
    ((o.format ≠ .f0 ∧ 7 < opa.toNat) ∨ (o.format = .f2r ∧ 7 < opb.toNat)) →
    decode c (c.opcodes o :: opa :: opb :: rest) = .error .illegalRegister

/-! ## The step and its faults -/

/-- A step runs the decoded instruction: when the bytes at pc decode to `i`, the step is `exec i` at the same state;
pc is still the instruction's address (40_fetch_decode_execute_loop.md R116, R121, 10_state.md R25). -/
def Obligations.StepRunsDecodedInstruction : Prop :=
  ∀ (s : State) (i : Instr) (rest : List Byte),
    s.run = .running → decode .decided s.codeAt = .ok (i, rest) → step s = exec i s

/-- The step, which reads memory one byte at a time, is the decoder on the bytes from pc to 255, at every valid
configuration: it runs what decodes, and where nothing decodes it raises OutOfBounds for missing bytes and IllegalInstruction otherwise
(40_fetch_decode_execute_loop.md R116 to R120; the order of the checks is the spec's decision D13,
60_exceptions.md R208). `step` is the step at the decided configuration. -/
def Obligations.StepRefinesTheDecoder : Prop :=
  (∀ s : State, step s = stepWith .decided s) ∧
  ∀ (c : Config) (s : State), c.Valid → s.run = .running →
    stepWith c s = match decode c s.codeAt with
      | .ok (i, _) => exec i s
      | .error .truncated => raise .outOfBounds s
      | .error (.illegalOpcode _) => raise .illegalInstruction s
      | .error .illegalRegister => raise .illegalInstruction s

/-- A step is defined exactly while `run` is Running: then there is a next state, and from Halted and Faulted there is
none (10_state.md R28, 40_fetch_decode_execute_loop.md R116). -/
def Obligations.StepDefinedExactlyWhileRunning : Prop :=
  ∀ s : State, (∃ t, step s = .next t) ↔ s.run = .running

/-- 60_exceptions.md R206 (that pc keeps its value is the spec's decision D18): a step that faults changes nothing but
the run state, the ports show the fault and its code, and no step follows it. -/
def Obligations.FaultsArePrecise : Prop :=
  ∀ (s t : State) (f : FaultCause), step s = .next t → t.run = .faulted f →
    FaultedFrom f s t ∧ t.faultedPort = true ∧ t.faultCodePort = f.code ∧ ∀ u, step t ≠ .next u

/-- 60_exceptions.md R201: the cases of OutOfBounds are exactly these four (pc is 0 to 256, 10_state.md R24), and pc is
left at the faulting instruction with nothing else changed. That CALL at 254 is one of them is the spec's decision D10
(44_control_transfer.md R190); that a register byte above 7 there is reported first is its decisions D6
(40_fetch_decode_execute_loop.md R120) and D13 (60_exceptions.md R208). -/
def Obligations.OutOfBoundsExactly : Prop :=
  ∀ s t : State, s.pc.toNat ≤ 256 → step s = .next t →
    ((t.run = .faulted .outOfBounds ↔
      s.pc.toNat = 256 ∨
      ∃ o : Op, s.opAt = some o ∧
        ((1 ≤ o.format.operands ∧ s.pc.toNat = 255) ∨
         (o.format.operands = 2 ∧ s.pc.toNat = 254) ∨
         (o = .call ∧ s.opa.toNat ≤ 7 ∧ s.pc.toNat = 254)))) ∧
    (t.run = .faulted .outOfBounds → FaultedFrom .outOfBounds s t)

/-- R202: DivisionByZero is raised by a fetched and validated DIV whose second register is zero, by nothing else, and
then nothing but the run state has changed: the destination register keeps its value, the whole machine is stopped. -/
def Obligations.DivisionByZeroExactly : Prop :=
  ∀ s t : State, step s = .next t →
    (t.run = .faulted .divisionByZero ↔
      s.opAt = some .div ∧ s.pc.toNat ≤ 253 ∧
      ∃ a b : Reg, s.opa = regByte a ∧ s.opb = regByte b ∧ s.x b = 0) ∧
    (t.run = .faulted .divisionByZero → FaultedFrom .divisionByZero s t ∧ ∀ u, step t ≠ .next u)

/-- 60_exceptions.md R204 (the spec's decisions D5 and D6): IllegalInstruction is raised for an opcode byte outside the
fifteen, and for a legal opcode with a register operand byte above 7 (whose bytes all lie in memory), and then nothing has
been changed and pc is not advanced. -/
def Obligations.IllegalInstructionExactly : Prop :=
  ∀ s t : State, s.pc.toNat ≤ 256 → step s = .next t →
    (t.run = .faulted .illegalInstruction ↔
      s.pc.toNat ≤ 255 ∧
      (s.opAt = none ∨ ∃ o : Op, s.opAt = some o ∧ s.pc.toNat < firstOutOfBounds o.format ∧ s.BadOperand o)) ∧
    (t.run = .faulted .illegalInstruction → FaultedFrom .illegalInstruction s t)

/-- 60_exceptions.md R203: the ALU block raises UnsupportedOperation for exactly the selects that are none of the five,
and no step, from any state whatever, leads to it. The five numerals are 40_fetch_decode_execute_loop.md R124's, low
nibbles of the opcodes, four of them by the spec's decision D1 (log entry 4). -/
def Obligations.UnsupportedOperationUnreachable : Prop :=
  (∀ (sel : BitVec 4) (a b : Byte),
    alu sel a b = .unsupported ↔ sel ∉ [0b0000#4, 0b0001#4, 0b0010#4, 0b0011#4, 0b0111#4]) ∧
  ∀ s t : State, step s = .next t → t.run ≠ .faulted .unsupportedOperation

/-- The ALU's use (40_fetch_decode_execute_loop.md R124; the values of four of the selects follow the spec's decision D1):
the five selects are the low nibbles of the five opcodes, and an ALU instruction writes one register or the flags,
never both. -/
def Obligations.AluWritesRegisterOrFlags : Prop :=
  (selAdd = idField (opcodeOf .add) ∧ selSub = idField (opcodeOf .sub) ∧ selMul = idField (opcodeOf .mul) ∧
    selDiv = idField (opcodeOf .div) ∧ selCmp = idField (opcodeOf .cmp)) ∧
  ∀ (sel : BitVec 4) (opa opb : Byte) (s t : State), aluInstr sel opa opb s = .next t →
    (t.fl = s.fl ∧ ∀ r : Reg, opa ≠ regByte r → t.x r = s.x r) ∨ (∀ r : Reg, t.x r = s.x r)

/-- 41_system_and_data.md R140 (which the spec marks as derived; IllegalInstruction here is its decision D6): the common
faults of every instruction, by format. -/
def Obligations.CommonFaultsOfEveryInstruction : Prop := ∀ o : Op, CommonFaults o

/-- The model's choice for a term no step builds (log entry 8): an instruction with a register operand byte above 7
raises IllegalInstruction in `exec` too, ahead of every other fault, with no effect (30_encoding.md R83,
60_exceptions.md R208). -/
def Obligations.IllFormedInstructionIsIllegal : Prop :=
  ∀ (i : Instr) (s : State), i.wf = false → ∃ t, exec i s = .next t ∧ FaultedFrom .illegalInstruction s t

/-! ## HLT, LDI, PRN -/

/-- R141: HLT. -/
def Obligations.HltHalts : Prop :=
  encode .decided .hlt = [0x01] ∧ CommonFaults .hlt ∧
  ∀ s : State, ∃ t, exec .hlt s = .next t ∧
    t.run = .halted ∧ t.pc = s.pc + 1 ∧ t.fl = s.fl ∧ t.out = s.out ∧
    SameRegsBut [] s t ∧ SameMem s t ∧ ∀ u, step t ≠ .next u

/-- R142: LDI. -/
def Obligations.LdiLoadsImmediate : Prop :=
  (∀ (r : Reg) (imm : Byte), encode .decided (.ldi (regByte r) imm) = [0x82, regByte r, imm]) ∧ CommonFaults .ldi ∧
  ∀ (r : Reg) (imm : Byte) (s : State), ∃ t, exec (.ldi (regByte r) imm) s = .next t ∧
    t.x r = imm ∧ t.pc = s.pc + 3 ∧ SameRegsBut [r] s t ∧ SameMem s t ∧ SameControl s t

/-- R143: PRN, with the output port. -/
def Obligations.PrnEmitsRegister : Prop :=
  (∀ r : Reg, encode .decided (.prn (regByte r)) = [0x47, regByte r]) ∧ CommonFaults .prn ∧
  (∀ (r : Reg) (s : State), ∃ t, exec (.prn (regByte r)) s = .next t ∧
    t.out = s.out ++ [s.x r] ∧ t.pc = s.pc + 2 ∧ t.fl = s.fl ∧ t.run = s.run ∧
    SameRegsBut [] s t ∧ SameMem s t) ∧
  (∀ (c : Config) (r : Reg) (s : State), s.run = .running → fetch c s = .ok (.prn (regByte r)) → prnPort c s = some (s.x r))

/-! ## PUSH, POP -/

/-- 42_stack.md R151: PUSH (the opcode value is the spec's decision D1, the case of register 7 its D12). The cell written
is `pushAddr s`, the decremented SP; `PUSH R7` stores the decremented SP. -/
def Obligations.PushStoresRegister : Prop :=
  (∀ r : Reg, encode .decided (.push (regByte r)) = [0x45, regByte r]) ∧ CommonFaults .push ∧
  ∀ (r : Reg) (s : State), ∃ t, exec (.push (regByte r)) s = .next t ∧
    (t.x 7).toNat = ((s.x 7).toNat + 255) % 256 ∧ pushAddr s = ((s.x 7).toNat + 255) % 256 ∧
    t.byteAt (pushAddr s) = (if r = 7 then s.x 7 - 1 else s.x r) ∧
    t.pc = s.pc + 2 ∧ SameRegsBut [7] s t ∧ SameMemBut (pushAddr s) s t ∧ SameControl s t

/-- 42_stack.md R152: POP (opcode value: decision D1; register 7: D12). `POP R7` ends with the popped value plus one,
modulo 256. -/
def Obligations.PopLoadsRegister : Prop :=
  (∀ r : Reg, encode .decided (.pop (regByte r)) = [0x46, regByte r]) ∧ CommonFaults .pop ∧
  ∀ (r : Reg) (s : State), ∃ t, exec (.pop (regByte r)) s = .next t ∧
    (r ≠ 7 → t.x r = s.byteAt (s.x 7).toNat ∧ (t.x 7).toNat = ((s.x 7).toNat + 1) % 256) ∧
    (r = 7 → (t.x 7).toNat = ((s.byteAt (s.x 7).toNat).toNat + 1) % 256) ∧
    t.pc = s.pc + 2 ∧ SameRegsBut [r, 7] s t ∧ SameMem s t ∧ SameControl s t

/-- 42_stack.md R155 (which the spec marks as derived): PUSH r then POP r leaves `x[r]` and `x[7]` as they were, register 7
included; the only lasting change is the one cell, and pc has advanced by 4. -/
def Obligations.PushThenPopRestores : Prop :=
  (∀ (r : Reg) (s : State), ∃ t u, exec (.push (regByte r)) s = .next t ∧ exec (.pop (regByte r)) t = .next u ∧
    SameRegsBut [] s u ∧ u.byteAt (pushAddr s) = (if r = 7 then s.x 7 - 1 else s.x r) ∧
    SameMemBut (pushAddr s) s u ∧ SameControl s u ∧ u.pc = s.pc + 4) ∧
  (∀ (a b : Reg) (s : State), a ≠ 7 → b ≠ 7 → ∃ t u, exec (.push (regByte a)) s = .next t ∧
    exec (.pop (regByte b)) t = .next u ∧ u.x b = s.x a ∧ SameRegsBut [b] s u)

/-- 42_stack.md R153 (the spec's decision D7): SP wraps modulo 256 and PUSH, POP and RET never fault when they execute,
whatever SP is; nor does CALL but for its return address. -/
def Obligations.StackWrapsWithoutFault : Prop :=
  (∀ (r : Reg) (s : State), ∃ t, exec (.push (regByte r)) s = .next t ∧ t.run = s.run ∧
    (s.x 7 = 0x00 → t.x 7 = 0xFF)) ∧
  (∀ (r : Reg) (s : State), ∃ t, exec (.pop (regByte r)) s = .next t ∧ t.run = s.run ∧
    (r ≠ 7 → s.x 7 = 0xFF → t.x 7 = 0x00)) ∧
  (∀ (r : Reg) (s : State), s.pc.toNat + 2 ≤ 255 → ∃ t, exec (.call (regByte r)) s = .next t ∧ t.run = s.run ∧
    (s.x 7 = 0x00 → t.x 7 = 0xFF)) ∧
  (∀ s : State, ∃ t, exec .ret s = .next t ∧ t.run = s.run ∧ (s.x 7 = 0xFF → t.x 7 = 0x00))

/-! ## ADD, SUB, MUL, DIV, CMP -/

/-- 43_alu.md R162: ADD (the opcode value is the spec's decision D1). -/
def Obligations.AddWraps : Prop :=
  (∀ a b : Reg, encode .decided (.add (regByte a) (regByte b)) = [0xA0, regByte a, regByte b]) ∧ CommonFaults .add ∧
  ∀ (a b : Reg) (s : State), ∃ t, exec (.add (regByte a) (regByte b)) s = .next t ∧
    ArithLeaves a (((s.x a).toNat + (s.x b).toNat) % 256) s t

/-- 43_alu.md R163: SUB (the opcode value is the spec's decision D1). -/
def Obligations.SubWraps : Prop :=
  (∀ a b : Reg, encode .decided (.sub (regByte a) (regByte b)) = [0xA1, regByte a, regByte b]) ∧ CommonFaults .sub ∧
  ∀ (a b : Reg) (s : State), ∃ t, exec (.sub (regByte a) (regByte b)) s = .next t ∧
    ArithLeaves a (((((s.x a).toNat : Int) - ((s.x b).toNat : Int)) % 256).toNat) s t

/-- R164: MUL. -/
def Obligations.MulWraps : Prop :=
  (∀ a b : Reg, encode .decided (.mul (regByte a) (regByte b)) = [0xA2, regByte a, regByte b]) ∧ CommonFaults .mul ∧
  ∀ (a b : Reg) (s : State), ∃ t, exec (.mul (regByte a) (regByte b)) s = .next t ∧
    ArithLeaves a (((s.x a).toNat * (s.x b).toNat) % 256) s t

/-- 43_alu.md R165: DIV, with its fault (opcode value: the spec's decision D1; unsigned floor division: D11). -/
def Obligations.DivFloorsOrFaults : Prop :=
  (∀ a b : Reg, encode .decided (.div (regByte a) (regByte b)) = [0xA3, regByte a, regByte b]) ∧ CommonFaults .div ∧
  (∀ (a b : Reg) (s : State), s.x b ≠ 0 → ∃ t, exec (.div (regByte a) (regByte b)) s = .next t ∧
    ArithLeaves a ((s.x a).toNat / (s.x b).toNat) s t) ∧
  (∀ (a b : Reg) (s : State), s.x b = 0 → ∃ t, exec (.div (regByte a) (regByte b)) s = .next t ∧
    FaultedFrom .divisionByZero s t)

/-- 43_alu.md R166: CMP (opcode value: the spec's decision D1). -/
def Obligations.CmpWritesWholeFlags : Prop :=
  (∀ a b : Reg, encode .decided (.cmp (regByte a) (regByte b)) = [0xA7, regByte a, regByte b]) ∧ CommonFaults .cmp ∧
  ∀ (a b : Reg) (s : State), ∃ t, exec (.cmp (regByte a) (regByte b)) s = .next t ∧
    ((s.x a).toNat = (s.x b).toNat → t.fl = 0b00000001) ∧
    ((s.x a).toNat > (s.x b).toNat → t.fl = 0b00000010) ∧
    ((s.x a).toNat < (s.x b).toNat → t.fl = 0b00000100) ∧
    t.pc = s.pc + 3 ∧ SameRegsBut [] s t ∧ SameMem s t ∧ t.run = s.run ∧ t.out = s.out

/-- 43_alu.md R167 (which the spec marks as derived): the same register twice. -/
def Obligations.SameRegisterTwice : Prop :=
  ∀ (a : Reg) (s : State),
    (∃ t, exec (.add (regByte a) (regByte a)) s = .next t ∧ (t.x a).toNat = (2 * (s.x a).toNat) % 256) ∧
    (∃ t, exec (.sub (regByte a) (regByte a)) s = .next t ∧ t.x a = 0) ∧
    (∃ t, exec (.mul (regByte a) (regByte a)) s = .next t ∧ (t.x a).toNat = ((s.x a).toNat * (s.x a).toNat) % 256) ∧
    (s.x a ≠ 0 → ∃ t, exec (.div (regByte a) (regByte a)) s = .next t ∧ t.x a = 1 ∧ t.run = s.run) ∧
    (s.x a = 0 → ∃ t, exec (.div (regByte a) (regByte a)) s = .next t ∧ FaultedFrom .divisionByZero s t) ∧
    (∃ t, exec (.cmp (regByte a) (regByte a)) s = .next t ∧ t.fl = 0x01)

/-! ## CALL, RET, JMP, JEQ, JNE -/

/-- 44_control_transfer.md R182, R183 and R190: CALL (opcode value: the spec's decision D1; pc 254: D10; register 7:
D12). The cell written is `pushAddr s`, the decremented SP; the return address is the next
instruction's, one byte; `CALL R7` goes to the decremented SP; from pc 254 on it is OutOfBounds before any effect. -/
def Obligations.CallPushesReturnAddress : Prop :=
  (∀ r : Reg, encode .decided (.call (regByte r)) = [0x50, regByte r]) ∧ CommonFaults .call ∧
  (∀ (r : Reg) (s : State), s.pc.toNat + 2 ≤ 255 → ∃ t, exec (.call (regByte r)) s = .next t ∧
    (t.x 7).toNat = ((s.x 7).toNat + 255) % 256 ∧ pushAddr s = ((s.x 7).toNat + 255) % 256 ∧
    (t.byteAt (pushAddr s)).toNat = s.pc.toNat + 2 ∧
    t.pc.toNat = (if r = 7 then s.x 7 - 1 else s.x r).toNat ∧
    SameRegsBut [7] s t ∧ SameMemBut (pushAddr s) s t ∧ SameControl s t) ∧
  (∀ (r : Reg) (s : State), s.pc.toNat + 2 > 255 → ∃ t, exec (.call (regByte r)) s = .next t ∧
    FaultedFrom .outOfBounds s t)

/-- 44_control_transfer.md R184: RET (opcode value: the spec's decision D1). -/
def Obligations.RetPopsPc : Prop :=
  encode .decided .ret = [0x11] ∧ CommonFaults .ret ∧
  ∀ s : State, ∃ t, exec .ret s = .next t ∧
    t.pc.toNat = (s.byteAt (s.x 7).toNat).toNat ∧ (t.x 7).toNat = ((s.x 7).toNat + 1) % 256 ∧
    SameRegsBut [7] s t ∧ SameMem s t ∧ SameControl s t

/-- R189: after `CALL r`, r not 7, pc is the target; a RET from any later state with the same SP whose cell still holds
the return address goes to the CALL's address plus 2, with SP back at its value before the CALL. -/
def Obligations.CallThenRetReturns : Prop :=
  ∀ (r : Reg) (s : State), r ≠ 7 → s.pc.toNat + 2 ≤ 255 →
    ∃ t, exec (.call (regByte r)) s = .next t ∧ t.pc.toNat = (s.x r).toNat ∧
      ∀ u : State, u.x 7 = t.x 7 → u.byteAt (u.x 7).toNat = t.byteAt (t.x 7).toNat →
        ∃ v, exec .ret u = .next v ∧ v.pc.toNat = s.pc.toNat + 2 ∧ v.x 7 = s.x 7

/-- 44_control_transfer.md R181: JMP (opcode value: the spec's decision D1). -/
def Obligations.JmpSetsPc : Prop :=
  (∀ r : Reg, encode .decided (.jmp (regByte r)) = [0x54, regByte r]) ∧ CommonFaults .jmp ∧
  ∀ (r : Reg) (s : State), ∃ t, exec (.jmp (regByte r)) s = .next t ∧
    t.pc.toNat = (s.x r).toNat ∧ SameRegsBut [] s t ∧ SameMem s t ∧ SameControl s t

/-- 44_control_transfer.md R185: JEQ reads bit 0 of FL only (opcode value: the spec's decision D1). -/
def Obligations.JeqJumpsIffEqual : Prop :=
  (∀ r : Reg, encode .decided (.jeq (regByte r)) = [0x55, regByte r]) ∧ CommonFaults .jeq ∧
  ∀ (r : Reg) (s : State), ∃ t, exec (.jeq (regByte r)) s = .next t ∧
    (s.fl.getLsbD 0 = true → t.pc.toNat = (s.x r).toNat) ∧ (s.fl.getLsbD 0 = false → t.pc = s.pc + 2) ∧
    SameRegsBut [] s t ∧ SameMem s t ∧ SameControl s t

/-- 44_control_transfer.md R186: JNE reads bit 0 of FL only, and jumps when it is clear (opcode value: the spec's
decision D1). -/
def Obligations.JneJumpsIffNotEqual : Prop :=
  (∀ r : Reg, encode .decided (.jne (regByte r)) = [0x56, regByte r]) ∧ CommonFaults .jne ∧
  ∀ (r : Reg) (s : State), ∃ t, exec (.jne (regByte r)) s = .next t ∧
    (s.fl.getLsbD 0 = false → t.pc.toNat = (s.x r).toNat) ∧ (s.fl.getLsbD 0 = true → t.pc = s.pc + 2) ∧
    SameRegsBut [] s t ∧ SameMem s t ∧ SameControl s t

/-- 95_test_vectors.md S3.4: a CMP then a JEQ or a JNE, without any knowledge of the flags before: JEQ jumps exactly on
equal operands, JNE exactly on unequal ones (43_alu.md R166, 44_control_transfer.md R185, R186). -/
def Obligations.CompareThenBranch : Prop :=
  ∀ (a b r : Reg) (s : State), ∃ t u v, exec (.cmp (regByte a) (regByte b)) s = .next t ∧
    exec (.jeq (regByte r)) t = .next u ∧ exec (.jne (regByte r)) t = .next v ∧
    (s.x a = s.x b → u.pc.toNat = (s.x r).toNat ∧ v.pc = s.pc + 5) ∧
    (s.x a ≠ s.x b → u.pc = s.pc + 5 ∧ v.pc.toNat = (s.x r).toNat)

/-! ## What no step, or only one instruction, can do -/

/-- 43_alu.md R168, over all instructions and from the machine's side: a step that changes FL ran a CMP, and a step that
runs a CMP writes no register. That FL is then one of three values is 43_alu.md R166 and 10_state.md R27, with bits 7:3
zero by the spec's decision D22. -/
def Obligations.FlagsWrittenOnlyByCmp : Prop :=
  ∀ s t : State, step s = .next t →
    (t.fl ≠ s.fl → s.opAt = some .cmp ∧ (t.fl = 0x01 ∨ t.fl = 0x02 ∨ t.fl = 0x04)) ∧
    (s.opAt = some .cmp → ∀ r : Reg, t.x r = s.x r)

/-- Memory is written only by PUSH and CALL, and only at the decremented SP (20_memory.md R59). -/
def Obligations.MemoryWrittenOnlyByPushAndCall : Prop :=
  ∀ (s t : State) (a : Nat), step s = .next t → t.byteAt a ≠ s.byteAt a →
    (s.opAt = some .push ∨ s.opAt = some .call) ∧ a = pushAddr s

/-- The registers an instruction writes, as the table of 10_state.md R21 lists them. -/
def Obligations.RegistersWrittenAsListed : Prop :=
  ∀ (s t : State) (r : Reg), step s = .next t → t.x r ≠ s.x r →
    (∃ o ∈ [Op.ldi, Op.pop, Op.add, Op.sub, Op.mul, Op.div], s.opAt = some o ∧ s.opa = regByte r) ∨
    (r = 7 ∧ ∃ o ∈ [Op.push, Op.pop, Op.call, Op.ret], s.opAt = some o)

/-- A step appends at most one byte to the output stream, and one exactly when it ran a PRN that did not fault
(10_state.md R34, 41_system_and_data.md R143). -/
def Obligations.OutputOnlyByPrn : Prop :=
  ∀ s t : State, step s = .next t →
    (t.out = s.out ∧ (s.opAt = some .prn → ∃ f, t.run = .faulted f)) ∨
    (s.opAt = some .prn ∧ t.run = .running ∧ ∃ r : Reg, s.opa = regByte r ∧ t.out = s.out ++ [s.x r])

/-- 10_state.md R29 (which the spec marks as derived): a step ends Halted exactly when the byte at pc, an address in
memory, is HLT. -/
def Obligations.HaltedOnlyByHlt : Prop :=
  ∀ s t : State, step s = .next t → (t.run = .halted ↔ s.pc.toNat ≤ 255 ∧ s.opAt = some .hlt)

/-- 40_fetch_decode_execute_loop.md R122: where pc goes when a step does not fault. The sum is exact: it never wraps. The
targets are 44_control_transfer.md R181 to R186; that CALL takes the register's value after its push is R183, the spec's
decision D12. -/
def Obligations.PcAfterEachStep : Prop :=
  ∀ s t : State, step s = .next t → (∀ f, t.run ≠ .faulted f) →
    ∃ o : Op, s.opAt = some o ∧ t.pc.toNat ≤ 256 ∧
      (o ∈ [Op.hlt, Op.ldi, Op.prn, Op.push, Op.pop, Op.add, Op.sub, Op.mul, Op.div, Op.cmp] →
        t.pc.toNat = s.pc.toNat + 1 + nops s.opcode) ∧
      (o = .ret → t.pc.toNat = (s.byteAt (s.x 7).toNat).toNat) ∧
      (o ∈ [Op.jmp, Op.call, Op.jeq, Op.jne] → ∃ r : Reg, s.opa = regByte r ∧
        (o = .jmp → t.pc.toNat = (s.x r).toNat) ∧
        (o = .call → t.pc.toNat = (t.x r).toNat) ∧
        (o = .jeq → t.pc.toNat = if s.fl.getLsbD 0 then (s.x r).toNat else s.pc.toNat + 2) ∧
        (o = .jne → t.pc.toNat = if s.fl.getLsbD 0 then s.pc.toNat + 2 else (s.x r).toNat))

/-- 20_memory.md R62 (which the spec marks as derived): a byte that PUSH or CALL stores into the instruction stream is
what the very next fetch reads. After the PUSH or CALL, the step acts on the bytes from the new pc that are those of the
memory before with the pushed byte at the address pushed to, whichever byte and address; in particular the opcode at pc
is the pushed byte where it was pushed there. With the opcode 0x01 pushed just after the PUSH, the next step halts; with a
byte that is no opcode, it faults. The byte of `PUSH R7` and the target of `CALL R7` are the spec's decision D12. -/
def Obligations.PushedByteIsFetched : Prop :=
  (∀ (r : Reg) (s : State), s.run = .running →
    let pushed := if r = 7 then s.x 7 - 1 else s.x r
    ∃ t, exec (.push (regByte r)) s = .next t ∧ t.pc = s.pc + 2 ∧
      step t = actOn .decided (bytesFrom t.pc.toNat fun a => if a = pushAddr s then pushed else s.byteAt a) t ∧
      (pushAddr s = t.pc.toNat → t.opcode = pushed ∧
        (pushed = 0x01 → ∃ u, step t = .next u ∧ u.run = .halted ∧ u.pc.toNat = t.pc.toNat + 1) ∧
        (decodeOpcode .decided pushed = none → ∃ u, step t = .next u ∧ FaultedFrom .illegalInstruction t u))) ∧
  (∀ (r : Reg) (s : State), s.run = .running → s.pc.toNat + 2 ≤ 255 →
    let pushed : Byte := BitVec.ofNat 8 (s.pc.toNat + 2)
    ∃ t, exec (.call (regByte r)) s = .next t ∧ t.pc.toNat = (if r = 7 then s.x 7 - 1 else s.x r).toNat ∧
      step t = actOn .decided (bytesFrom t.pc.toNat fun a => if a = pushAddr s then pushed else s.byteAt a) t ∧
      (pushAddr s = t.pc.toNat → t.opcode = pushed))

/-! ## Memory -/

/-- R52 and R53: the two operations of the memory interface, in range and out of range, with the frame of a write. -/
def Obligations.MemoryInterface : Prop :=
  (∀ (s : State) (a : Nat), a ≤ 255 → memRead s a = .ok (s.byteAt a)) ∧
  (∀ (s : State) (a : Nat), 255 < a → memRead s a = .error .outOfBounds) ∧
  (∀ (s : State) (a : Nat) (v : Byte), a ≤ 255 → ∃ t, memWrite s a v = .ok t ∧ t.byteAt a = v ∧
    SameMemBut a s t ∧ t.regs = s.regs ∧ t.pc = s.pc ∧ SameControl s t) ∧
  (∀ (s : State) (a : Nat) (v : Byte), 255 < a → memWrite s a v = .error .outOfBounds)

/-- Memories in canonical form that read the same at all 256 addresses are the same data. -/
def Obligations.CanonicalMemoriesAreEqual : Prop :=
  ∀ m m' : Memory, Memory.wf m → Memory.wf m' → (∀ a, a ≤ 255 → Memory.read m a = Memory.read m' a) → m = m'

/-! ## Reset, launch, runs -/

/-- 10_state.md R35: the state after reset with a loaded program of at most 256 bytes, for every configuration and every
value of FL_RESET; with nothing loaded and the decided configuration (SP_RESET 0xF4 and MEM_FILL 0x00, the spec's
decisions D2 and D4) it is `State.reset`, whose own FL is not used here. -/
def Obligations.LaunchFollowsResetTable : Prop :=
  (∀ (c : Config) (program : List Byte) (flReset : Byte), program.length ≤ 256 →
    (∀ r : Reg, r ≠ 7 → (launch c program flReset).x r = 0x00) ∧
    (launch c program flReset).x 7 = c.spReset ∧
    (launch c program flReset).pc = 0 ∧ (launch c program flReset).fl = flReset ∧
    (launch c program flReset).run = .running ∧ (launch c program flReset).out = [] ∧
    (∀ k, k < program.length → program[k]? = some ((launch c program flReset).byteAt k)) ∧
    (∀ k, program.length ≤ k → k ≤ 255 → (launch c program flReset).byteAt k = c.memFill) ∧
    memRead (launch c program flReset) (launch c program flReset).pc.toNat =
      .ok ((launch c program flReset).byteAt 0)) ∧
  Config.decided.spReset = 0xF4 ∧ Config.decided.memFill = 0x00 ∧
  ∀ flReset : Byte, launch .decided [] flReset = State.reset.setFl flReset

/-- The invariant holds at reset (10_state.md R24, R35). -/
def Obligations.ResetMeetsInvariant : Prop := Invariant State.reset

/-- Every step keeps the invariant, from every state that meets it: pc stays in 0 to 256 and memory stays canonical
(10_state.md R24, R26). So does a step at any other valid configuration. -/
def Obligations.StepKeepsInvariant : Prop :=
  (∀ s t : State, Invariant s → step s = .next t → Invariant t) ∧
  ∀ (c : Config) (s t : State), c.Valid → Invariant s → stepWith c s = .next t → Invariant t

/-- Every state of every run meets the invariant, whatever valid configuration, program and FL_RESET it was launched
with. Of a program of more than 256 bytes `launch` keeps the first 256, the model's choice (log entry 12). -/
def Obligations.LaunchedRunsKeepInvariant : Prop :=
  ∀ (c : Config) (program : List Byte) (flReset : Byte) (t : State), c.Valid →
    Steps c (launch c program flReset) t → Invariant t

/-- A run that ends well never ends badly, whatever configuration: Halted and Faulted are terminal and a run is one
sequence of states (60_exceptions.md R209, 70_reset_and_hazards.md R240, 40_fetch_decode_execute_loop.md R125). -/
def Obligations.HaltedRunsNeverFault : Prop := ∀ (c : Config) (s : State), EndsWell c s → ¬ EndsBadly c s

/-- Emitted values are never taken back, whatever configuration: along a run the output stream only grows (10_state.md
R34, 70_reset_and_hazards.md R242). -/
def Obligations.OutputOnlyGrows : Prop := ∀ (c : Config) (s t : State), Steps c s t → s.out <+: t.out

/-- 40_fetch_decode_execute_loop.md R123 and 70_reset_and_hazards.md R240: a run ends well, ends badly or never ends,
and no two of the three. -/
def Obligations.RunsEndInOneOfThreeWays : Prop :=
  ∀ (c : Config) (s : State),
    (EndsWell c s ∨ EndsBadly c s ∨ NeverEnds c s) ∧
    ¬ (EndsWell c s ∧ EndsBadly c s) ∧ ¬ (EndsWell c s ∧ NeverEnds c s) ∧ ¬ (EndsBadly c s ∧ NeverEnds c s)

/-- 70_reset_and_hazards.md R243: a run under fuel reports the Halted or Faulted state it reached within `k` steps, and
"still Running after k steps" exactly when `k` steps have been made and the machine is Running. -/
def Obligations.BoundedRunReportsExactly : Prop :=
  ∀ (c : Config) (k : Nat) (s t : State),
    (runFor c k s = .halted t ↔ t.run = .halted ∧ ∃ n ≤ k, StepsIn c s n t) ∧
    (∀ f, runFor c k s = .faulted f t ↔ t.run = .faulted f ∧ ∃ n ≤ k, StepsIn c s n t) ∧
    (runFor c k s = .stillRunning t ↔ t.run = .running ∧ StepsIn c s k t)

/-! ## The host's side -/

/-- R103: the worked image loads as the bytes the spec lists. -/
def Obligations.WorkedImageLoads : Prop :=
  parseImage ("10000010\n00000000\n00001000\n10000010\n00000001\n00001001\n10100010\n00000000\n00000001\n" ++
    "01000111\n00000000\n00000001\n").toList =
    .ok [0x82, 0x00, 0x08, 0x82, 0x01, 0x09, 0xA2, 0x00, 0x01, 0x47, 0x00, 0x01]

/-- What a line of the image text is (30_encoding.md R101, R102): nothing when no token is left after the comment and
the white space; MalformedProgram for a token with a character other than 0 and 1, or a value above 255; else its
value. The comment character and the limit on the value are the spec's decision D21. What counts as white space, and that
more than 8 digits are accepted where the value fits, are the model's choices (log entry 11). -/
def Obligations.ImageLineMeaning : Prop :=
  ∀ line : List Char,
    let token := trimChars (line.takeWhile (· ≠ '#'))
    let value := token.foldl (fun n c => 2 * n + if c = '1' then 1 else 0) 0
    (token = [] → parseLine line = .ok none) ∧
    ((∃ c ∈ token, c ≠ '0' ∧ c ≠ '1') → parseLine line = .error .malformedProgram) ∧
    (token ≠ [] → (∀ c ∈ token, c = '0' ∨ c = '1') → 255 < value → parseLine line = .error .malformedProgram) ∧
    (token ≠ [] → (∀ c ∈ token, c = '0' ∨ c = '1') → value ≤ 255 → parseLine line = .ok (some (BitVec.ofNat 8 value)))

/-- An image text is its lines, cut at line feeds (the model's choice, log entry 11). One malformed line, or a 257th
value, and no run exists; otherwise the run starts from the launch of the values of the lines, in their order, lines
without a value skipped (30_encoding.md R101, R102, 70_reset_and_hazards.md R234). -/
def Obligations.LoadStartsOnlyWholePrograms : Prop :=
  ∀ (c : Config) (text : List Char) (flReset : Byte),
    List.intercalate ['\n'] (splitLines text) = text ∧ (∀ line ∈ splitLines text, '\n' ∉ line) ∧
    ((∃ line ∈ splitLines text, parseLine line = .error .malformedProgram) →
      loadText c text flReset = .error .malformedProgram) ∧
    (∀ values : List (Option Byte), (splitLines text).map parseLine = values.map .ok →
      ((values.filterMap id).length ≤ 256 →
        loadText c text flReset = .ok (launch c (values.filterMap id) flReset)) ∧
      (256 < (values.filterMap id).length → loadText c text flReset = .error .malformedProgram))

/-- 60_exceptions.md R205 and R200 at the ports (the numbers are the spec's decision D14): the fault code is 1 to 4 by
cause and 0 when not faulted, and `halted` and `faulted` follow the run state. -/
def Obligations.StatusPortsFollowRunState : Prop :=
  ∀ s : State,
    (s.haltedPort = true ↔ s.run = .halted) ∧
    (s.faultedPort = true ↔ ∃ f, s.run = .faulted f) ∧
    (s.faultCodePort = 0 ↔ s.faultedPort = false) ∧
    (s.run = .faulted .outOfBounds → s.faultCodePort = 1) ∧
    (s.run = .faulted .divisionByZero → s.faultCodePort = 2) ∧
    (s.run = .faulted .unsupportedOperation → s.faultCodePort = 3) ∧
    (s.run = .faulted .illegalInstruction → s.faultCodePort = 4)
end

