-- ==== Sys2Proof/Laws/Decode.lean ====
section
/-! SUPPORT. Small lemmas about the opcode map, the decoder and the encoder. -/

namespace Sys2Proof

@[simp] theorem Op.mem_all (o : Op) : o ∈ Op.all := by cases o <;> decide

/-! ## The configuration -/

theorem Config.decided_valid : Config.decided.Valid := by decide

@[simp] theorem Config.opcodes_decided : Config.decided.opcodes = opcodeOf := rfl

theorem Config.Valid.nops {c : Config} (h : c.Valid) (o : Op) : nops (c.opcodes o) = o.format.operands := by
  simp only [Config.Valid, Config.valid, Bool.and_eq_true, List.all_eq_true, beq_iff_eq] at h
  exact (h.1.2 o o.mem_all).1

theorem Config.Valid.inj {c : Config} (h : c.Valid) {o o' : Op} (e : c.opcodes o = c.opcodes o') : o = o' := by
  simp only [Config.Valid, Config.valid, Bool.and_eq_true, decide_eq_true_iff] at h
  exact List.inj_on_of_nodup_map h.2 o.mem_all o'.mem_all e

/-! ## The lookup -/

/-- The lookup answers a row whose opcode equals the byte (30_encoding.md R88). -/
theorem opcodes_of_decodeOpcode {c : Config} {b : Byte} {o : Op} (h : decodeOpcode c b = some o) : c.opcodes o = b := by
  have := List.find?_some h
  exact of_decide_eq_true this

/-- The lookup finds every row of a valid table. -/
theorem decodeOpcode_opcodes {c : Config} (h : c.Valid) (o : Op) : decodeOpcode c (c.opcodes o) = some o := by
  cases ho : decodeOpcode c (c.opcodes o) with
  | none => exact absurd (List.find?_eq_none.mp ho o o.mem_all) (by simp)
  | some o' => exact congrArg some (h.inj (opcodes_of_decodeOpcode ho))

@[simp] theorem decodeOpcode_opcodeOf (o : Op) : decodeOpcode .decided (opcodeOf o) = some o :=
  decodeOpcode_opcodes Config.decided_valid o

theorem opcodeOf_of_decodeOpcode {b : Byte} {o : Op} (h : decodeOpcode .decided b = some o) : opcodeOf o = b :=
  opcodes_of_decodeOpcode h

@[simp] theorem nops_opcodeOf (o : Op) : nops (opcodeOf o) = o.format.operands := Config.decided_valid.nops o

/-! ## Operand bytes -/

theorem operands_le_two (f : Format) : f.operands ≤ 2 := by cases f <;> decide

@[simp] theorem op_build (o : Op) (a b : Byte) : (o.build a b).op = o := by cases o <;> rfl

theorem length_operandBytes (i : Instr) : i.operandBytes.length = i.op.format.operands := by cases i <;> rfl

/-- Building an instruction's operation on its own operand bytes gives it back. -/
theorem build_operandBytes (i : Instr) (rest : List Byte) :
    i.op.build ((i.operandBytes ++ rest).getD 0 0) ((i.operandBytes ++ rest).getD 1 0) = i := by
  cases i <;> rfl

theorem operandBytes_build (o : Op) (bs : List Byte) (h : o.format.operands ≤ bs.length) :
    (o.build (bs.getD 0 0) (bs.getD 1 0)).operandBytes = bs.take o.format.operands := by
  cases o <;> rcases bs with _ | ⟨a, _ | ⟨b, bs⟩⟩ <;>
    first | rfl | exact absurd h (by decide) | exact absurd h (by simp [Op.format, Format.operands])

end Sys2Proof
end

