-- ==== Sys2Proof/Laws/State.lean ====
section
/-! SUPPORT. One lemma per observation per update of the state, so that no later proof unfolds a record update. -/

namespace Sys2Proof.Machine

variable (s : State)

/-! ## Registers -/

theorem State.x_setReg (r q : Reg) (v : Byte) : (s.setReg r v).x q = if q = r then v else s.x q := by
  simp only [State.x, State.setReg, Fin.getElem_fin, Vector.getElem_set, Fin.ext_iff, eq_comm]

@[simp] theorem State.x_setReg_self (r : Reg) (v : Byte) : (s.setReg r v).x r = v := by simp [State.x_setReg]

@[simp] theorem State.x_setReg_ne {r q : Reg} (v : Byte) (h : q ≠ r) : (s.setReg r v).x q = s.x q := by
  simp [State.x_setReg, h]

/-- SP is another spelling of `x[7]` (10_state.md R22). -/
theorem State.sp_eq : s.sp = s.x 7 := rfl

@[simp] theorem State.sp_setReg_sp (v : Byte) : (s.setReg Config.spIndex v).sp = v := State.x_setReg_self s _ v

@[simp] theorem State.x_setPc (v : PcVal) (q : Reg) : (s.setPc v).x q = s.x q := rfl
@[simp] theorem State.x_setFl (v : Byte) (q : Reg) : (s.setFl v).x q = s.x q := rfl
@[simp] theorem State.x_setRun (v : RunState) (q : Reg) : (s.setRun v).x q = s.x q := rfl
@[simp] theorem State.x_emit (v : Byte) (q : Reg) : (s.emit v).x q = s.x q := rfl
@[simp] theorem State.x_setByte (a : Nat) (v : Byte) (q : Reg) : (s.setByte a v).x q = s.x q := rfl
@[simp] theorem State.x_advance (n : Nat) (q : Reg) : (s.advance n).x q = s.x q := rfl
@[simp] theorem State.x_jump (t : Byte) (q : Reg) : (s.jump t).x q = s.x q := rfl

/-! ## The program counter -/

@[simp] theorem State.pc_setReg (r : Reg) (v : Byte) : (s.setReg r v).pc = s.pc := rfl
@[simp] theorem State.pc_setPc (v : PcVal) : (s.setPc v).pc = v := rfl
@[simp] theorem State.pc_setFl (v : Byte) : (s.setFl v).pc = s.pc := rfl
@[simp] theorem State.pc_setRun (v : RunState) : (s.setRun v).pc = s.pc := rfl
@[simp] theorem State.pc_emit (v : Byte) : (s.emit v).pc = s.pc := rfl
@[simp] theorem State.pc_setByte (a : Nat) (v : Byte) : (s.setByte a v).pc = s.pc := rfl
@[simp] theorem State.pc_advance (n : Nat) : (s.advance n).pc = s.pc + BitVec.ofNat 9 n := rfl
@[simp] theorem State.pc_jump (t : Byte) : (s.jump t).pc = byteToPc t := rfl

/-! ## The flags byte -/

@[simp] theorem State.fl_setReg (r : Reg) (v : Byte) : (s.setReg r v).fl = s.fl := rfl
@[simp] theorem State.fl_setPc (v : PcVal) : (s.setPc v).fl = s.fl := rfl
@[simp] theorem State.fl_setFl (v : Byte) : (s.setFl v).fl = v := rfl
@[simp] theorem State.fl_setRun (v : RunState) : (s.setRun v).fl = s.fl := rfl
@[simp] theorem State.fl_emit (v : Byte) : (s.emit v).fl = s.fl := rfl
@[simp] theorem State.fl_setByte (a : Nat) (v : Byte) : (s.setByte a v).fl = s.fl := rfl
@[simp] theorem State.fl_advance (n : Nat) : (s.advance n).fl = s.fl := rfl
@[simp] theorem State.fl_jump (t : Byte) : (s.jump t).fl = s.fl := rfl

/-! ## The run state -/

@[simp] theorem State.run_setReg (r : Reg) (v : Byte) : (s.setReg r v).run = s.run := rfl
@[simp] theorem State.run_setPc (v : PcVal) : (s.setPc v).run = s.run := rfl
@[simp] theorem State.run_setFl (v : Byte) : (s.setFl v).run = s.run := rfl
@[simp] theorem State.run_setRun (v : RunState) : (s.setRun v).run = v := rfl
@[simp] theorem State.run_emit (v : Byte) : (s.emit v).run = s.run := rfl
@[simp] theorem State.run_setByte (a : Nat) (v : Byte) : (s.setByte a v).run = s.run := rfl
@[simp] theorem State.run_advance (n : Nat) : (s.advance n).run = s.run := rfl
@[simp] theorem State.run_jump (t : Byte) : (s.jump t).run = s.run := rfl

/-! ## Memory -/

@[simp] theorem State.mem_setReg (r : Reg) (v : Byte) : (s.setReg r v).mem = s.mem := rfl
@[simp] theorem State.mem_setPc (v : PcVal) : (s.setPc v).mem = s.mem := rfl
@[simp] theorem State.mem_setFl (v : Byte) : (s.setFl v).mem = s.mem := rfl
@[simp] theorem State.mem_setRun (v : RunState) : (s.setRun v).mem = s.mem := rfl
@[simp] theorem State.mem_emit (v : Byte) : (s.emit v).mem = s.mem := rfl
@[simp] theorem State.mem_setByte (a : Nat) (v : Byte) : (s.setByte a v).mem = Memory.write s.mem a v := rfl
@[simp] theorem State.mem_advance (n : Nat) : (s.advance n).mem = s.mem := rfl
@[simp] theorem State.mem_jump (t : Byte) : (s.jump t).mem = s.mem := rfl

/-! ## The output stream -/

@[simp] theorem State.out_setReg (r : Reg) (v : Byte) : (s.setReg r v).out = s.out := rfl
@[simp] theorem State.out_setPc (v : PcVal) : (s.setPc v).out = s.out := rfl
@[simp] theorem State.out_setFl (v : Byte) : (s.setFl v).out = s.out := rfl
@[simp] theorem State.out_setRun (v : RunState) : (s.setRun v).out = s.out := rfl
@[simp] theorem State.out_emit (v : Byte) : (s.emit v).out = s.out ++ [v] := rfl
@[simp] theorem State.out_setByte (a : Nat) (v : Byte) : (s.setByte a v).out = s.out := rfl
@[simp] theorem State.out_advance (n : Nat) : (s.advance n).out = s.out := rfl
@[simp] theorem State.out_jump (t : Byte) : (s.jump t).out = s.out := rfl

/-! ## The register file as a whole, for updates that do not touch it -/

@[simp] theorem State.regs_setPc (v : PcVal) : (s.setPc v).regs = s.regs := rfl
@[simp] theorem State.regs_setFl (v : Byte) : (s.setFl v).regs = s.regs := rfl
@[simp] theorem State.regs_setRun (v : RunState) : (s.setRun v).regs = s.regs := rfl
@[simp] theorem State.regs_emit (v : Byte) : (s.emit v).regs = s.regs := rfl
@[simp] theorem State.regs_setByte (a : Nat) (v : Byte) : (s.setByte a v).regs = s.regs := rfl
@[simp] theorem State.regs_advance (n : Nat) : (s.advance n).regs = s.regs := rfl
@[simp] theorem State.regs_jump (t : Byte) : (s.jump t).regs = s.regs := rfl

/-! ## Bytes and the stack pointer, read through their accessors -/

@[simp] theorem State.byteAt_setReg (r : Reg) (v : Byte) (a : Nat) : (s.setReg r v).byteAt a = s.byteAt a := rfl
@[simp] theorem State.byteAt_setPc (v : PcVal) (a : Nat) : (s.setPc v).byteAt a = s.byteAt a := rfl
@[simp] theorem State.byteAt_setFl (v : Byte) (a : Nat) : (s.setFl v).byteAt a = s.byteAt a := rfl
@[simp] theorem State.byteAt_setRun (v : RunState) (a : Nat) : (s.setRun v).byteAt a = s.byteAt a := rfl
@[simp] theorem State.byteAt_emit (v : Byte) (a : Nat) : (s.emit v).byteAt a = s.byteAt a := rfl
@[simp] theorem State.byteAt_advance (n a : Nat) : (s.advance n).byteAt a = s.byteAt a := rfl
@[simp] theorem State.byteAt_jump (t : Byte) (a : Nat) : (s.jump t).byteAt a = s.byteAt a := rfl

@[simp] theorem State.sp_setByte (a : Nat) (v : Byte) : (s.setByte a v).sp = s.sp := rfl
@[simp] theorem State.sp_jump (t : Byte) : (s.jump t).sp = s.sp := rfl
@[simp] theorem State.sp_advance (n : Nat) : (s.advance n).sp = s.sp := rfl

/-- Two states with the same fields are the same state. -/
theorem State.ext_fields {s t : State} (hr : t.regs = s.regs) (hp : t.pc = s.pc) (hf : t.fl = s.fl)
    (hn : t.run = s.run) (hm : t.mem = s.mem) (ho : t.out = s.out) : t = s := by
  cases s; cases t; simp_all

end Sys2Proof.Machine
end

