-- ==== Sys2Proof/Laws/Memory.lean ====
section
/-! SUPPORT. The laws of memory: read after write, canonical form kept by every operation, equal contents are equal
data (20_memory.md R51 to R53). -/

namespace Sys2Proof.Machine

/-! ## Reading -/

theorem Memory.read_put (m : Memory) (a b : Nat) (v : Byte) :
    Memory.read (Memory.put m a v) b = if b = a then v else Memory.read m b := by
  induction m with
  | nil => rfl
  | cons c m ih => grind [Memory.put, Memory.read]

theorem Memory.read_filter (m : Memory) (a b : Nat) :
    Memory.read (m.filter (fun c => c.1 != a)) b = if b = a then Memory.unlisted else Memory.read m b := by
  induction m with
  | nil => simp [Memory.read]
  | cons c m ih => grind [Memory.read]

/-- Read after write (20_memory.md R51): the cell written holds the value, every other cell is as before. -/
theorem Memory.read_write (m : Memory) (a b : Nat) (v : Byte) :
    Memory.read (Memory.write m a v) b = if b = a then v else Memory.read m b := by
  unfold Memory.write
  split
  · simp_all [Memory.read_filter]
  · exact Memory.read_put m a b v

theorem State.byteAt_setByte (s : State) (a b : Nat) (v : Byte) :
    (s.setByte a v).byteAt b = if b = a then v else s.byteAt b := Memory.read_write s.mem a b v

@[simp] theorem State.byteAt_setByte_self (s : State) (a : Nat) (v : Byte) : (s.setByte a v).byteAt a = v := by
  simp [State.byteAt_setByte]

@[simp] theorem State.byteAt_setByte_ne (s : State) {a b : Nat} (v : Byte) (h : b ≠ a) :
    (s.setByte a v).byteAt b = s.byteAt b := by
  simp [State.byteAt_setByte, h]

/-- A cell below the first listed address reads like an unlisted one. -/
theorem Memory.read_below {m : Memory} {a : Nat} (h : ∀ c ∈ m, a < c.1) : Memory.read m a = Memory.unlisted := by
  induction m with
  | nil => rfl
  | cons c m ih => grind [Memory.read]

/-! ## The canonical form -/

theorem Memory.wf_nil : Memory.wf [] := ⟨List.Pairwise.nil, fun _ h => absurd h List.not_mem_nil⟩

theorem Memory.mem_put {m : Memory} {a : Nat} {v : Byte} {c : Host.Cell} (h : c ∈ Memory.put m a v) :
    c = (a, v) ∨ c ∈ m := by
  induction m with
  | nil => simpa [Memory.put] using h
  | cons d m ih => grind [Memory.put]

theorem Memory.pairwise_put {m : Memory} (a : Nat) (v : Byte) (h : m.Pairwise (fun c d => c.1 < d.1)) :
    (Memory.put m a v).Pairwise (fun c d => c.1 < d.1) := by
  induction m with
  | nil => simp [Memory.put]
  | cons d m ih =>
    obtain ⟨b, w⟩ := d
    obtain ⟨hd, hm⟩ := List.pairwise_cons.mp h
    unfold Memory.put
    split
    · exact List.pairwise_cons.mpr ⟨fun c hc => by grind, h⟩
    · split
      · exact List.pairwise_cons.mpr ⟨fun c hc => by grind, hm⟩
      · exact List.pairwise_cons.mpr ⟨fun c hc => by
          rcases Memory.mem_put hc with rfl | hc
          · simp only; omega
          · exact hd c hc, ih hm⟩

/-- A write in range keeps the canonical form. -/
theorem Memory.wf_write {m : Memory} {a : Nat} (v : Byte) (ha : a < Config.memSize) (h : Memory.wf m) :
    Memory.wf (Memory.write m a v) := by
  unfold Memory.write
  split
  · exact ⟨h.1.filter _, fun c hc => h.2 c (List.mem_of_mem_filter hc)⟩
  · refine ⟨Memory.pairwise_put a v h.1, fun c hc => ?_⟩
    rcases Memory.mem_put hc with rfl | hc
    · exact ⟨ha, ‹_›⟩
    · exact h.2 c hc

theorem Memory.wf_store (vs : List Byte) {m : Memory} (a : Nat) (h : Memory.wf m) :
    Memory.wf (Memory.store m a vs) := by
  induction vs generalizing m a with
  | nil => exact h
  | cons v vs ih =>
    unfold Memory.store
    split
    · exact ih _ (Memory.wf_write v ‹_› h)
    · exact ih _ h

/-- One byte of `Memory.store`: written where its address is inside the memory. -/
theorem Memory.read_storeOne (m : Memory) (a b : Nat) (v : Byte) :
    Memory.read (if a < Config.memSize then Memory.write m a v else m) b =
      if b = a ∧ b < Config.memSize then v else Memory.read m b := by
  split <;> grind [Memory.read_write]

/-- `Memory.store` as a function of the address: the listed bytes where they fall inside the memory, the old contents
elsewhere. -/
theorem Memory.read_store (vs : List Byte) (m : Memory) (a b : Nat) :
    Memory.read (Memory.store m a vs) b =
      if a ≤ b ∧ b < a + vs.length ∧ b < Config.memSize then vs.getD (b - a) 0 else Memory.read m b := by
  induction vs generalizing m a with
  | nil => rw [if_neg (by simp only [List.length_nil]; omega)]; rfl
  | cons v vs ih =>
    rw [Memory.store, ih, Memory.read_storeOne, List.length_cons]
    by_cases hab : b = a
    · subst hab
      simp
    · by_cases hle : a ≤ b
      · obtain ⟨k, rfl⟩ : ∃ k, b = a + 1 + k := ⟨b - a - 1, by omega⟩
        rw [show a + 1 + k - a = k + 1 by omega, show a + 1 + k - (a + 1) = k by omega, List.getD_cons_succ,
          if_neg (c := a + 1 + k = a ∧ _) (by omega)]
        exact if_congr (by omega) rfl rfl
      · rw [if_neg (by omega), if_neg (by omega), if_neg (by omega)]

/-! ## The bounds check -/

theorem memRead_ok {s : State} {a : Nat} (h : a < Config.memSize) : memRead s a = .ok (s.byteAt a) := if_pos h

theorem memRead_error {s : State} {a : Nat} (h : ¬ a < Config.memSize) : memRead s a = .error .outOfBounds := if_neg h

theorem memWrite_ok {s : State} {a : Nat} (v : Byte) (h : a < Config.memSize) :
    memWrite s a v = .ok (s.setByte a v) := if_pos h

theorem memWrite_error {s : State} {a : Nat} (v : Byte) (h : ¬ a < Config.memSize) :
    memWrite s a v = .error .outOfBounds := if_neg h

/-- The memory interface keeps the canonical form. -/
theorem wf_of_memWrite {s t : State} {a : Nat} {v : Byte} (h : memWrite s a v = .ok t) (hs : Memory.wf s.mem) :
    Memory.wf t.mem := by
  by_cases ha : a < Config.memSize
  · rw [memWrite_ok v ha] at h
    exact Except.ok.inj h ▸ Memory.wf_write v ha hs
  · simp [memWrite_error v ha] at h

end Sys2Proof.Machine
end

