-- ==== Sys2Proof/Laws/Ops.lean ====
section
/-! SUPPORT. For each shared operation, what it does, said once. -/

namespace Sys2Proof.Machine

/-! ## Operands -/

@[simp] theorem regOf_regByte (r : Reg) : regOf (regByte r) = some r := by revert r; decide

theorem regOf_eq_some {b : Byte} {r : Reg} : regOf b = some r ↔ b = regByte r := by
  revert b r; decide

theorem regOf_eq_none {b : Byte} : regOf b = none ↔ isRegByte b = false := by
  revert b; decide

theorem isRegByte_iff {b : Byte} : isRegByte b = true ↔ ∃ r, b = regByte r := by
  revert b; decide

theorem regByte_toNat (r : Reg) : (regByte r).toNat = r.val := by revert r; decide

@[simp] theorem withReg_regByte (r : Reg) (s : State) (k : Reg → Result) : withReg (regByte r) s k = k r := by
  simp [withReg]

theorem withReg_illegal {opa : Byte} (h : isRegByte opa = false) (s : State) (k : Reg → Result) :
    withReg opa s k = raise .illegalInstruction s := by
  simp [withReg, regOf_eq_none.mpr h]

/-- Everything `withReg` can do: it runs `k` on the register the byte names, or the byte names none and the
instruction is illegal. -/
theorem withReg_cases (opa : Byte) (s : State) (k : Reg → Result) :
    (∃ r, opa = regByte r ∧ withReg opa s k = k r) ∨
    (isRegByte opa = false ∧ withReg opa s k = raise .illegalInstruction s) := by
  by_cases h : isRegByte opa = true
  · obtain ⟨r, rfl⟩ := isRegByte_iff.mp h
    exact .inl ⟨r, rfl, withReg_regByte r s k⟩
  · simp only [Bool.not_eq_true] at h
    exact .inr ⟨h, withReg_illegal h s k⟩

@[simp] theorem withRegs_regByte (a b : Reg) (s : State) (k : Reg → Reg → Result) :
    withRegs (regByte a) (regByte b) s k = k a b := by
  simp [withRegs]

theorem withRegs_illegal {opa opb : Byte} (h : isRegByte opa = false ∨ isRegByte opb = false) (s : State)
    (k : Reg → Reg → Result) : withRegs opa opb s k = raise .illegalInstruction s := by
  unfold withRegs
  rcases withReg_cases opa s (fun a => withReg opb s fun b => k a b) with ⟨a, rfl, e⟩ | ⟨-, e⟩
  · rw [e]
    refine withReg_illegal (h.resolve_left ?_) s _
    simp [isRegByte_iff.mpr ⟨a, rfl⟩]
  · exact e

/-! ## The stack -/

theorem byte_lt_memSize (b : Byte) : b.toNat < Config.memSize := b.isLt

theorem pushAddr_lt (s : State) : pushAddr s < Config.memSize := byte_lt_memSize _

/-- A push always completes (42_stack.md R153), and this is the state it leaves. -/
theorem push_eq (val : State → Byte) (s : State) :
    push val s = .ok ((s.setReg Config.spIndex (s.sp - 1)).setByte (pushAddr s)
      (val (s.setReg Config.spIndex (s.sp - 1)))) :=
  memWrite_ok _ (pushAddr_lt s)

/-- A pop always completes (42_stack.md R153), and this is the state it leaves. -/
theorem pop_eq (put : Byte → State → State) (s : State) :
    pop put s = .ok ((put (s.byteAt s.sp.toNat) s).setReg Config.spIndex
      ((put (s.byteAt s.sp.toNat) s).sp + 1)) := by
  simp [pop, memRead_ok (byte_lt_memSize _)]

@[simp] theorem complete_ok (s t : State) (k : State → State) : complete s (.ok t) k = .next (k t) := rfl

@[simp] theorem complete_error (s : State) (f : FaultCause) (k : State → State) :
    complete s (.error f) k = raise f s := rfl

/-! ## The program counter -/

theorem byteToPc_toNat (b : Byte) : (byteToPc b).toNat = b.toNat := by
  have := b.isLt
  rw [byteToPc, BitVec.toNat_setWidth]
  omega

/-! ## The ALU -/

@[simp] theorem alu_add (a b : Byte) : alu selAdd a b = .result (a + b) := rfl
@[simp] theorem alu_sub (a b : Byte) : alu selSub a b = .result (a - b) := rfl
@[simp] theorem alu_mul (a b : Byte) : alu selMul a b = .result (a * b) := rfl
@[simp] theorem alu_div (a b : Byte) : alu selDiv a b = if b = 0 then .divideByZero else .result (a / b) := rfl
@[simp] theorem alu_cmp (a b : Byte) : alu selCmp a b = .flags (compareFlags a b) := rfl

@[simp] theorem aluFinish_result (a : Reg) (s : State) (v : Byte) :
    aluFinish a s (.result v) = .next ((s.setReg a v).advance 3) := rfl
@[simp] theorem aluFinish_flags (a : Reg) (s : State) (v : Byte) :
    aluFinish a s (.flags v) = .next ((s.setFl v).advance 3) := rfl
@[simp] theorem aluFinish_divideByZero (a : Reg) (s : State) :
    aluFinish a s .divideByZero = raise .divisionByZero s := rfl
@[simp] theorem aluFinish_unsupported (a : Reg) (s : State) :
    aluFinish a s .unsupported = raise .unsupportedOperation s := rfl

end Sys2Proof.Machine
end

