-- ==== Sys2Proof/Laws/Step.lean ====
section
/-! SUPPORT. What a fetch, an instruction and a step can do, said once. -/

namespace Sys2Proof.Machine

/-! ## The step -/

theorem stepWith_running (c : Config) {s : State} (h : s.run = .running) :
    stepWith c s = match fetch c s with
      | .error f => raise f s
      | .ok i => exec i s := by
  cases hf : fetch c s <;> simp only [stepWith, h, hf]

theorem stepWith_halted (c : Config) {s : State} (h : s.run = .halted) : stepWith c s = .fault .noStepAfterHalt := by
  simp [stepWith, h]

theorem stepWith_faulted (c : Config) {s : State} {f : FaultCause} (h : s.run = .faulted f) :
    stepWith c s = .fault (.noStepAfterFault f) := by
  simp [stepWith, h]

/-- A step that answers a next state began Running, and either executed the fetched instruction or raised the fault
the fetch met. -/
theorem stepWith_cases {c : Config} {s t : State} (h : stepWith c s = .next t) :
    s.run = .running ∧
    ((∃ i, fetch c s = .ok i ∧ exec i s = .next t) ∨ (∃ f, fetch c s = .error f ∧ t = s.setRun (.faulted f))) := by
  cases hr : s.run with
  | halted => simp [stepWith_halted c hr] at h
  | faulted f => simp [stepWith_faulted c hr] at h
  | running =>
    rw [stepWith_running c hr] at h
    cases hf : fetch c s with
    | ok i => exact ⟨rfl, .inl ⟨i, rfl, by simpa [hf] using h⟩⟩
    | error f => exact ⟨rfl, .inr ⟨f, rfl, by simpa [hf, raise, eq_comm] using h⟩⟩

/-- `stepWith_cases` at the decided configuration. -/
theorem step_cases {s t : State} (h : step s = .next t) :
    s.run = .running ∧
    ((∃ i, fetch .decided s = .ok i ∧ exec i s = .next t) ∨
     (∃ f, fetch .decided s = .error f ∧ t = s.setRun (.faulted f))) := stepWith_cases h

/-! ## The fetch -/

theorem fetchOperand_ok {s : State} {n k : Nat} {b : Byte} (h : fetchOperand s n k = .ok b) :
    (k ≤ n ∧ s.pc.toNat + k < Config.memSize ∧ b = s.byteAt (s.pc.toNat + k)) ∨ (¬ k ≤ n ∧ b = 0) := by
  unfold fetchOperand at h
  split at h
  · rename_i hk
    by_cases hb : s.pc.toNat + k < Config.memSize
    · rw [memRead_ok hb] at h
      exact .inl ⟨hk, hb, (Except.ok.inj h).symm⟩
    · rw [memRead_error hb] at h
      simp at h
  · exact .inr ⟨‹_›, (Except.ok.inj h).symm⟩

theorem fetchOperand_error {s : State} {n k : Nat} {f : FaultCause} (h : fetchOperand s n k = .error f) :
    k ≤ n ∧ ¬ s.pc.toNat + k < Config.memSize ∧ f = .outOfBounds := by
  unfold fetchOperand at h
  split at h
  · by_cases hb : s.pc.toNat + k < Config.memSize
    · simp [memRead_ok hb] at h
    · rw [memRead_error hb] at h
      exact ⟨‹_›, hb, by simpa [eq_comm] using h⟩
  · simp at h

/-- The build reads no operand byte beyond its format, so the zeros of bytes not fetched never show. -/
theorem build_congr (o : Op) {a a' b b' : Byte} (ha : 1 ≤ o.format.operands → a = a')
    (hb : 2 ≤ o.format.operands → b = b') : o.build a b = o.build a' b' := by
  cases o <;> simp_all [Op.build, Op.format, Format.operands]

/-- A fetch that succeeds: pc is in range, the byte there is an opcode, all operand bytes are in range, and the
instruction is well formed. -/
theorem fetchWith_ok {c : Config} (hc : c.Valid) {s : State} {i : Instr} (h : fetch c s = .ok i) :
    s.pc.toNat < Config.memSize ∧ decodeOpcode c s.opcode = some i.op ∧ i = i.op.build s.opa s.opb ∧ i.WellFormed ∧
    s.pc.toNat + i.op.format.operands < Config.memSize := by
  unfold fetch at h
  by_cases hp : s.pc.toNat < Config.memSize
  · rw [memRead_ok hp] at h
    cases ho : decodeOpcode c (s.byteAt s.pc.toNat) with
    | none => simp [ho] at h
    | some o =>
      have hn : nops (s.byteAt s.pc.toNat) = o.format.operands := by
        rw [← opcodes_of_decodeOpcode ho, hc.nops]
      simp only [ho, hn] at h
      cases h1 : fetchOperand s o.format.operands 1 with
      | error f => simp [h1] at h
      | ok a =>
        cases h2 : fetchOperand s o.format.operands 2 with
        | error f => simp [h1, h2] at h
        | ok b =>
          simp only [h1, h2] at h
          by_cases hw : (o.build a b).wf = true
          · rw [if_pos hw] at h
            obtain rfl : o.build a b = i := by simpa using h
            rw [op_build]
            refine ⟨hp, ho, build_congr o (fun hk => ?_) (fun hk => ?_), hw, ?_⟩
            · rcases fetchOperand_ok h1 with ⟨-, -, e⟩ | ⟨hk', -⟩
              · exact e
              · exact absurd hk hk'
            · rcases fetchOperand_ok h2 with ⟨-, -, e⟩ | ⟨hk', -⟩
              · exact e
              · exact absurd hk hk'
            · have := operands_le_two o.format
              rcases fetchOperand_ok h1 with ⟨_, hb1, -⟩ | ⟨hk1, -⟩
              · rcases fetchOperand_ok h2 with ⟨_, hb2, -⟩ | ⟨hk2, -⟩ <;> omega
              · omega
          · simp [hw] at h
  · simp [memRead_error hp] at h

/-- `fetchWith_ok` at the decided configuration. -/
theorem fetch_ok {s : State} {i : Instr} (h : fetch .decided s = .ok i) :
    s.pc.toNat < Config.memSize ∧ s.opAt = some i.op ∧ i = i.op.build s.opa s.opb ∧ i.WellFormed ∧
    s.pc.toNat + i.op.format.operands < Config.memSize := fetchWith_ok Config.decided_valid h

/-- Whatever the configuration, only well-formed instructions are fetched. -/
theorem wellFormed_of_fetch {c : Config} {s : State} {i : Instr} (h : fetch c s = .ok i) : i.WellFormed := by
  unfold fetch at h
  repeat' (split at h)
  all_goals first
    | cases h; assumption
    | simp at h

/-- A fetch that fails meets OutOfBounds or IllegalInstruction, never another fault. -/
theorem fetch_error {c : Config} {s : State} {f : FaultCause} (h : fetch c s = .error f) :
    f = .outOfBounds ∨ f = .illegalInstruction := by
  unfold fetch at h
  by_cases hp : s.pc.toNat < Config.memSize
  · rw [memRead_ok hp] at h
    cases ho : decodeOpcode c (s.byteAt s.pc.toNat) with
    | none => exact .inr (by simpa [ho, eq_comm] using h)
    | some o =>
      simp only [ho] at h
      cases h1 : fetchOperand s (nops (s.byteAt s.pc.toNat)) 1 with
      | error g =>
        simp only [h1, Except.error.injEq] at h
        exact .inl (h ▸ (fetchOperand_error h1).2.2)
      | ok a =>
        cases h2 : fetchOperand s (nops (s.byteAt s.pc.toNat)) 2 with
        | error g =>
          simp only [h1, h2, Except.error.injEq] at h
          exact .inl (h ▸ (fetchOperand_error h2).2.2)
        | ok b =>
          simp only [h1, h2] at h
          split at h
          · simp at h
          · exact .inr (by simpa [eq_comm] using h)
  · exact .inl (by simpa [memRead_error hp, eq_comm] using h)

end Sys2Proof.Machine
end

