-- ==== Sys2Proof/Laws/Exec.lean ====
section
/-! SUPPORT. Each instruction's next state on register operands, said once in the model's own operations; the cases
of a well-formed instruction. -/

namespace Sys2Proof.Machine

variable (s : State) (r a b : Reg)

theorem exec_hlt : exec .hlt s = .next ((s.setRun .halted).advance 1) := rfl

theorem exec_ldi (imm : Byte) : exec (.ldi (regByte r) imm) s = .next ((s.setReg r imm).advance 3) := by
  simp [exec, execLdi]

theorem exec_prn : exec (.prn (regByte r)) s = .next ((s.emit (s.x r)).advance 2) := by simp [exec, execPrn]

theorem exec_push : exec (.push (regByte r)) s =
    .next (((s.setReg 7 (s.sp - 1)).setByte (pushAddr s) ((s.setReg 7 (s.sp - 1)).x r)).advance 2) := by
  simp only [exec, execPush, withReg_regByte, push_eq, complete_ok]

theorem exec_pop : exec (.pop (regByte r)) s =
    .next (((s.setReg r (s.byteAt s.sp.toNat)).setReg 7 ((s.setReg r (s.byteAt s.sp.toNat)).sp + 1)).advance 2) := by
  simp only [exec, execPop, withReg_regByte, pop_eq, complete_ok]

theorem exec_call (h : s.pc.toNat + 2 ≤ 255) : exec (.call (regByte r)) s =
    .next (((s.setReg 7 (s.sp - 1)).setByte (pushAddr s) (BitVec.ofNat 8 (s.pc.toNat + 2))).jump
      ((s.setReg 7 (s.sp - 1)).x r)) := by
  simp only [exec, execCall, withReg_regByte, push_eq, complete_ok]
  exact if_neg (by unfold returnAddr; omega)

theorem exec_call_unfit (h : s.pc.toNat + 2 > 255) : exec (.call (regByte r)) s = raise .outOfBounds s := by
  simp only [exec, execCall, withReg_regByte]
  exact if_pos h

theorem exec_ret : exec .ret s = .next ((s.jump (s.byteAt s.sp.toNat)).setReg 7 (s.sp + 1)) := by
  simp only [exec, execRet, pop_eq, complete_ok, State.sp_jump]

theorem exec_add : exec (.add (regByte a) (regByte b)) s = .next ((s.setReg a (s.x a + s.x b)).advance 3) := by
  simp [exec, execAdd, aluInstr]

theorem exec_sub : exec (.sub (regByte a) (regByte b)) s = .next ((s.setReg a (s.x a - s.x b)).advance 3) := by
  simp [exec, execSub, aluInstr]

theorem exec_mul : exec (.mul (regByte a) (regByte b)) s = .next ((s.setReg a (s.x a * s.x b)).advance 3) := by
  simp [exec, execMul, aluInstr]

theorem exec_div (h : s.x b ≠ 0) :
    exec (.div (regByte a) (regByte b)) s = .next ((s.setReg a (s.x a / s.x b)).advance 3) := by
  simp only [exec, execDiv, aluInstr, withRegs_regByte, alu_div, if_neg h, aluFinish_result]

theorem exec_div_zero (h : s.x b = 0) : exec (.div (regByte a) (regByte b)) s = raise .divisionByZero s := by
  simp only [exec, execDiv, aluInstr, withRegs_regByte, alu_div, if_pos h, aluFinish_divideByZero]

theorem exec_cmp : exec (.cmp (regByte a) (regByte b)) s =
    .next ((s.setFl (compareFlags (s.x a) (s.x b))).advance 3) := by
  simp [exec, execCmp, aluInstr]

theorem exec_jmp : exec (.jmp (regByte r)) s = .next (s.jump (s.x r)) := by simp [exec, execJmp, jumpIf]

theorem exec_jeq : exec (.jeq (regByte r)) s =
    .next (if flagE s.fl then s.jump (s.x r) else s.advance 2) := by
  simp [exec, execJeq, jumpIf]

theorem exec_jne : exec (.jne (regByte r)) s =
    .next (if !flagE s.fl then s.jump (s.x r) else s.advance 2) := by
  simp [exec, execJne, jumpIf]

/-- A well-formed instruction has registers in its register positions. -/
theorem wellFormed_cases {i : Instr} (h : i.WellFormed) :
    i = .hlt ∨ i = .ret ∨ (∃ r imm, i = .ldi (regByte r) imm) ∨
    (∃ r, i = .prn (regByte r) ∨ i = .push (regByte r) ∨ i = .pop (regByte r) ∨ i = .call (regByte r) ∨
      i = .jmp (regByte r) ∨ i = .jeq (regByte r) ∨ i = .jne (regByte r)) ∨
    (∃ a b, i = .add (regByte a) (regByte b) ∨ i = .sub (regByte a) (regByte b) ∨ i = .mul (regByte a) (regByte b) ∨
      i = .div (regByte a) (regByte b) ∨ i = .cmp (regByte a) (regByte b)) := by
  cases i <;> simp [Instr.WellFormed, Instr.wf, Instr.regBytes, Instr.op, Op.format, Instr.operandBytes] at h <;>
    (try simp)
  all_goals first
    | exact isRegByte_iff.mp h
    | exact ⟨isRegByte_iff.mp h.1, isRegByte_iff.mp h.2⟩

/-- The ALU's output always makes a next state: a write or a fault. -/
theorem aluFinish_next (o : AluOut) : ∃ t, aluFinish a s o = .next t := by cases o <;> exact ⟨_, rfl⟩

/-- `withReg` answers a next state if what it runs does. -/
theorem withReg_next {opa : Byte} {k : Reg → Result} (h : ∀ r, ∃ t, k r = .next t) :
    ∃ t, withReg opa s k = .next t := by
  rcases withReg_cases opa s k with ⟨r, -, e⟩ | ⟨-, e⟩
  · exact e ▸ h r
  · exact e ▸ ⟨_, rfl⟩

/-- Every instruction answers a next state, whatever its operand bytes. -/
theorem exec_next (i : Instr) : ∃ t, exec i s = .next t := by
  have alu_next : ∀ sel opa opb, ∃ t, aluInstr sel opa opb s = .next t := fun _ _ _ =>
    withReg_next s fun a => withReg_next s fun _ => aluFinish_next s a _
  cases i with
  | hlt => exact ⟨_, rfl⟩
  | ret => exact ⟨_, exec_ret s⟩
  | ldi _ _ | prn _ | jmp _ | jeq _ | jne _ => exact withReg_next s fun _ => ⟨_, rfl⟩
  | push _ => exact withReg_next s fun _ => ⟨_, by rw [push_eq]; rfl⟩
  | pop _ => exact withReg_next s fun _ => ⟨_, by rw [pop_eq]; rfl⟩
  | call _ =>
    refine withReg_next s fun _ => ?_
    split
    · exact ⟨_, rfl⟩
    · exact ⟨_, by rw [push_eq]; rfl⟩
  | add _ _ | mul _ _ | sub _ _ | div _ _ | cmp _ _ => exact alu_next _ _ _

end Sys2Proof.Machine
end

