-- ==== Sys2Proof/Laws/PerInstr.lean ====
section
/-! SUPPORT. Statements made of every instruction as syntax, one lemma per constructor. -/

namespace Sys2Proof.Laws.EncodeLength

/-- An instruction is encoded in one byte more than its opcode's operand count, whatever the opcode map (30_encoding.md R89). -/
def Statement (i : Instr) : Prop := ∀ c : Config, c.Valid → (encode c i).length = 1 + nops (c.opcodes i.op)

theorem of_any (i : Instr) : Statement i := fun c h => by simp [encode, length_operandBytes, h.nops, Nat.add_comm]

theorem hlt : Statement .hlt := of_any _
theorem ldi (opa imm : Byte) : Statement (.ldi opa imm) := of_any _
theorem prn (opa : Byte) : Statement (.prn opa) := of_any _
theorem push (opa : Byte) : Statement (.push opa) := of_any _
theorem pop (opa : Byte) : Statement (.pop opa) := of_any _
theorem call (opa : Byte) : Statement (.call opa) := of_any _
theorem ret : Statement .ret := of_any _
theorem add (opa opb : Byte) : Statement (.add opa opb) := of_any _
theorem mul (opa opb : Byte) : Statement (.mul opa opb) := of_any _
theorem sub (opa opb : Byte) : Statement (.sub opa opb) := of_any _
theorem div (opa opb : Byte) : Statement (.div opa opb) := of_any _
theorem cmp (opa opb : Byte) : Statement (.cmp opa opb) := of_any _
theorem jmp (opa : Byte) : Statement (.jmp opa) := of_any _
theorem jeq (opa : Byte) : Statement (.jeq opa) := of_any _
theorem jne (opa : Byte) : Statement (.jne opa) := of_any _

end Sys2Proof.Laws.EncodeLength
end

