-- ==== Sys2Proof/Laws/Run.lean ====
section
/-! SUPPORT. The launch, the steps of a run and the run under fuel, said once. -/

namespace Sys2Proof.Machine

/-! ## The launch -/

@[simp] theorem length_imageOf (c : Config) (program : List Byte) : (imageOf c program).length = Config.memSize := by
  simp [imageOf]; omega

/-- One cell of IMAGE (70_reset_and_hazards.md R233). -/
theorem getD_imageOf (c : Config) (program : List Byte) {k : Nat} (h : k < Config.memSize) :
    (imageOf c program).getD k 0 = program.getD k c.memFill := by
  by_cases hk : k < program.length
  · simp [imageOf, List.getD_eq_getElem?_getD, List.getElem?_append, hk, h]
  · rw [List.getD_eq_default (l := program) _ (by omega)]
    simp only [imageOf, List.getD_eq_getElem?_getD, List.getElem?_append, List.length_take, List.getElem?_replicate]
    rw [if_neg (by omega), if_pos (by omega)]
    rfl

/-- The memory of a launch is IMAGE. -/
theorem byteAt_launch (c : Config) (program : List Byte) (flReset : Byte) {k : Nat} (h : k < Config.memSize) :
    (launch c program flReset).byteAt k = program.getD k c.memFill := by
  rw [← getD_imageOf c program h]
  exact (Memory.read_store (imageOf c program) [] 0 k).trans (if_pos ⟨Nat.zero_le _, by simpa using h, h⟩)

theorem x_launch (c : Config) (program : List Byte) (flReset : Byte) (r : Reg) :
    (launch c program flReset).x r = if r = 7 then c.spReset else State.reset.x r :=
  State.x_setReg State.reset 7 r c.spReset

@[simp] theorem pc_launch (c : Config) (program : List Byte) (flReset : Byte) : (launch c program flReset).pc = 0 := rfl
@[simp] theorem fl_launch (c : Config) (program : List Byte) (flReset : Byte) :
    (launch c program flReset).fl = flReset := rfl
@[simp] theorem run_launch (c : Config) (program : List Byte) (flReset : Byte) :
    (launch c program flReset).run = .running := rfl
@[simp] theorem out_launch (c : Config) (program : List Byte) (flReset : Byte) :
    (launch c program flReset).out = [] := rfl

theorem wf_launch (c : Config) (program : List Byte) (flReset : Byte) :
    Memory.wf (launch c program flReset).mem := Memory.wf_store _ 0 Memory.wf_nil

/-! ## The steps of a run -/

/-- No step is defined after Halted and Faulted (10_state.md R28). -/
theorem running_of_stepWith {c : Config} {s t : State} (h : stepWith c s = .next t) : s.run = .running :=
  (stepWith_cases h).1

/-- A run is one sequence of states (40_fetch_decode_execute_loop.md R125). -/
theorem StepsIn.det {c : Config} {s t u : State} {n : Nat} (ht : StepsIn c s n t) (hu : StepsIn c s n u) : t = u := by
  induction ht generalizing u with
  | refl => cases hu; rfl
  | tail _ ht ih =>
    cases hu with
    | tail hu' hu =>
      obtain rfl := ih hu'
      exact Host.Outcome.next.inj (ht.symm.trans hu)

/-- A step before the steps of a run. -/
theorem StepsIn.head {c : Config} {s t u : State} {n : Nat} (h : stepWith c s = .next t) (hs : StepsIn c t n u) :
    StepsIn c s (n + 1) u := by
  induction hs with
  | refl => exact .tail .refl h
  | tail _ h' ih => exact ih.tail h'

/-- The first step of a run of at least one step. -/
theorem StepsIn.cases_head {c : Config} {s u : State} {n : Nat} (h : StepsIn c s (n + 1) u) :
    ∃ t, stepWith c s = .next t ∧ StepsIn c t n u := by
  induction n generalizing u with
  | zero => cases h with | tail h' h => cases h'; exact ⟨u, h, .refl⟩
  | succ n ih =>
    cases h with
    | tail h' h =>
      obtain ⟨t, h₁, h₂⟩ := ih h'
      exact ⟨t, h₁, h₂.tail h⟩

/-- A state from which the step answers itself is the whole run. -/
theorem stepsIn_self {c : Config} {s : State} (h : stepWith c s = .next s) (n : Nat) : StepsIn c s n s := by
  induction n with
  | zero => exact .refl
  | succ n ih => exact ih.tail h

/-! ## The run under fuel -/

@[simp] theorem runFor_zero (c : Config) (s : State) : runFor c 0 s = .of s := rfl

theorem runFor_next {c : Config} {s t : State} (h : stepWith c s = .next t) (k : Nat) :
    runFor c (k + 1) s = runFor c k t := by
  simp [runFor, h]

/-- A run that has stopped stays where it is, whatever fuel is left. -/
theorem runFor_stopped (c : Config) {s : State} (h : s.run ≠ .running) (k : Nat) : runFor c k s = .of s := by
  cases k with
  | zero => rfl
  | succ k =>
    unfold runFor
    split
    · exact absurd (running_of_stepWith ‹_›) h
    · rfl
    · rfl

theorem RunOutcome.of_eq_halted {s t : State} : RunOutcome.of s = .halted t ↔ s = t ∧ t.run = .halted := by
  unfold RunOutcome.of
  split <;> simp_all <;> rintro rfl <;> simp_all

theorem RunOutcome.of_eq_faulted {s t : State} {f : FaultCause} :
    RunOutcome.of s = .faulted f t ↔ s = t ∧ t.run = .faulted f := by
  unfold RunOutcome.of
  split <;> simp_all <;> grind

theorem RunOutcome.of_eq_stillRunning {s t : State} : RunOutcome.of s = .stillRunning t ↔ s = t ∧ t.run = .running := by
  unfold RunOutcome.of
  split <;> simp_all <;> rintro rfl <;> simp_all

end Sys2Proof.Machine
end

