-- ==== Sys2Proof/Tests/Slice0.lean ====
section
/-! SUPPORT. The model's own tests. Expected results are the words and vectors of spec/30_encoding.md R86 and
spec/95_test_vectors.md (S1, S2, V<n>), named in each comment; the witnesses show that the hypotheses of the statements
can be met. -/

namespace Sys2Proof.Tests

open Sys2Proof.Machine

/-! ## Helpers -/

/-- The reset state with registers, flags and code at `p`, and pc there. -/
def at_ (p : Nat) (code : List Byte) (regs : List (Reg × Byte)) (fl : Byte) : State :=
  regs.foldl (fun s rv => s.setReg rv.1 rv.2)
    { State.reset with pc := BitVec.ofNat 9 p, fl := fl, mem := Memory.store [] p code }

/-- The same with one more byte in memory. -/
def with_ (s : State) (a : Nat) (v : Byte) : State := s.setByte a v

/-- The step answers a next state that passes the check. -/
def after (s : State) (check : State → Bool) : Bool :=
  match step s with
  | .next t => check t
  | .fault _ => false
  | .refused _ => false

theorem of_after {s : State} {check : State → Bool} (h : after s check = true) :
    ∃ t, step s = .next t ∧ check t = true := by
  unfold after at h
  split at h
  · exact ⟨_, ‹_›, h⟩
  · simp at h
  · simp at h

/-- A valid configuration other than the decided one: another SP_RESET, MEM_FILL and PUSH opcode. -/
def otherConfig : Config where
  spReset := 0x80
  memFill := 0xFF
  opcodes o := if o = .push then 0x44 else opcodeOf o

/-- The run state after a fault and nothing else changed. -/
def faultedAs (f : FaultCause) (s t : State) : Bool :=
  t.run == .faulted f && t.regs == s.regs && t.pc == s.pc && t.fl == s.fl && t.mem == s.mem && t.out == s.out

/-! ## Well-formedness: an ill-formed term for each check (40_fetch_decode_execute_loop.md R120) -/

theorem test_wf_refuses_opa_f1 : (Instr.prn 8).wf = false := by decide
theorem test_wf_refuses_opa_f2r : (Instr.add 8 0).wf = false := by decide
theorem test_wf_refuses_opb_f2r : (Instr.add 0 8).wf = false := by decide
theorem test_wf_refuses_opa_f2i : (Instr.ldi 8 0).wf = false := by decide
theorem test_wf_accepts_any_immediate : (Instr.ldi 7 0xFF).wf = true := by decide

/-! ## The configuration: one refused for each check (00_scope.md R6, 30_encoding.md R84), and what it changes -/

theorem test_config_other_is_valid : otherConfig.valid = true := by decide
theorem test_config_sp_reset_zero : (Config.valid { otherConfig with spReset := 0 }) = false := by decide
theorem test_config_operand_count :
    (Config.valid { otherConfig with opcodes := fun o => if o = .push then 0x85 else opcodeOf o }) = false := by decide
theorem test_config_alu_bit :
    (Config.valid { otherConfig with opcodes := fun o => if o = .push then 0x65 else opcodeOf o }) = false := by decide
theorem test_config_distinct :
    (Config.valid { otherConfig with opcodes := fun o => if o = .push then 0x46 else opcodeOf o }) = false := by decide
theorem test_config_changes_decode : decode otherConfig [0x44, 3] = .ok (.push 3, []) ∧
    decode otherConfig [0x45, 3] = .error (.illegalOpcode 0x45) := by decide
theorem test_config_changes_launch : (launch otherConfig [0x44, 0] 0).x 7 = 0x80 ∧
    (launch otherConfig [0x44, 0] 0).byteAt 1 = 0 ∧ (launch otherConfig [0x44, 0] 0).byteAt 255 = 0xFF := by
  decide +kernel

/-! ## Decoding: words written out from 30_encoding.md R80, R82, R86 -/

theorem test_decode_hlt : decode .decided [0b00000001] = .ok (.hlt, []) := by decide
theorem test_decode_ldi : decode .decided [0b10000010, 0b00000000, 0b00001000] = .ok (.ldi 0 8, []) := by decide
theorem test_decode_prn : decode .decided [0b01000111, 0b00000111] = .ok (.prn 7, []) := by decide
theorem test_decode_push : decode .decided [0b01000101, 0b00000011] = .ok (.push 3, []) := by decide
theorem test_decode_pop : decode .decided [0b01000110, 0b00000010] = .ok (.pop 2, []) := by decide
theorem test_decode_call : decode .decided [0b01010000, 0b00000001] = .ok (.call 1, []) := by decide
theorem test_decode_ret : decode .decided [0b00010001] = .ok (.ret, []) := by decide
theorem test_decode_add : decode .decided [0b10100000, 0b00000100, 0b00000110] = .ok (.add 4 6, []) := by decide
theorem test_decode_mul : decode .decided [0b10100010, 0b00000000, 0b00000001] = .ok (.mul 0 1, []) := by decide
theorem test_decode_sub : decode .decided [0b10100001, 0b00000001, 0b00000010] = .ok (.sub 1 2, []) := by decide
theorem test_decode_div : decode .decided [0b10100011, 0b00000000, 0b00000010] = .ok (.div 0 2, []) := by decide
theorem test_decode_cmp : decode .decided [0b10100111, 0b00000001, 0b00000011] = .ok (.cmp 1 3, []) := by decide
theorem test_decode_jmp : decode .decided [0b01010100, 0b00000101] = .ok (.jmp 5, []) := by decide
theorem test_decode_jeq : decode .decided [0b01010101, 0b00000100] = .ok (.jeq 4, []) := by decide
theorem test_decode_jne : decode .decided [0b01010110, 0b00000100] = .ok (.jne 4, []) := by decide
theorem test_decode_leaves_rest : decode .decided [0b00000001, 0xFF, 0x82] = .ok (.hlt, [0xFF, 0x82]) := by decide

/-! Rejections by name. -/

theorem test_decode_empty : decode .decided [] = .error .truncated := by decide
theorem test_decode_short : decode .decided [0xA3, 0x00] = .error .truncated := by decide
theorem test_decode_nop_is_illegal : decode .decided [0x00] = .error (.illegalOpcode 0x00) := by decide
theorem test_decode_ld_is_illegal : decode .decided [0x83, 0, 0] = .error (.illegalOpcode 0x83) := by decide
theorem test_decode_register_8 : decode .decided [0x82, 0x08, 0x01] = .error .illegalRegister := by decide
theorem test_decode_opb_9 : decode .decided [0xA3, 0x00, 0x09] = .error .illegalRegister := by decide

/-! Words of the opcode table (its match column), and that a step runs one as the first instruction after reset. -/

theorem test_table_words : [decodeTableWord 8 0x01, decodeTableWord 24 0x820000, decodeTableWord 16 0x4700,
    decodeTableWord 16 0x4501, decodeTableWord 16 0x4607, decodeTableWord 16 0x5000, decodeTableWord 8 0x11] =
    [some .hlt, some (.ldi 0 0), some (.prn 0), some (.push 1), some (.pop 7), some (.call 0), some .ret] := by decide

theorem test_table_words_alu_and_jumps : [decodeTableWord 24 0xA00102, decodeTableWord 24 0xA20000,
    decodeTableWord 24 0xA10000, decodeTableWord 24 0xA30000, decodeTableWord 24 0xA70000, decodeTableWord 16 0x5400,
    decodeTableWord 16 0x5500, decodeTableWord 16 0x5600] =
    [some (.add 1 2), some (.mul 0 0), some (.sub 0 0), some (.div 0 0), some (.cmp 0 0), some (.jmp 0),
     some (.jeq 0), some (.jne 0)] := by decide

theorem test_table_word_refused : decodeTableWord 16 0x4708 = none ∧ decodeTableWord 8 0x00 = none := by decide

theorem test_fetch_word_is_fetched : fetch .decided (State.reset.withFetchWord 24 0xA70102) = .ok (.cmp 1 2) := by decide

/-! ## One step of each instruction (95_test_vectors.md) -/

/-- V9. -/
theorem test_hlt_at_top : after (at_ 0xFF [0x01] [] 0) (fun t => t.run == .halted && t.pc == 256) = true := by decide

/-- V22. -/
theorem test_ldi_keeps_high_bit : after (at_ 0x10 [0x82, 0x03, 0xFF] [] 0) (fun t => t.x 3 == 0xFF && t.pc == 0x13) = true := by
  decide

/-- V26. -/
theorem test_prn_r7 : after (at_ 0 [0x47, 0x07] [] 0) (fun t => t.out == [244] && t.pc == 2) = true := by decide

/-- V32. -/
theorem test_push_wraps : after (at_ 3 [0x45, 0x00] [(7, 0x00), (0, 0x11)] 0)
    (fun t => t.x 7 == 0xFF && t.byteAt 0xFF == 0x11 && t.pc == 5 && t.run == .running) = true := by decide

/-- V35. -/
theorem test_push_r7_stores_new_sp : after (at_ 0 [0x45, 0x07] [] 0)
    (fun t => t.x 7 == 0xF3 && t.byteAt 0xF3 == 0xF3) = true := by decide

/-- V33. -/
theorem test_pop_wraps : after (with_ (at_ 3 [0x46, 0x00] [(7, 0xFF)] 0) 0xFF 0x22)
    (fun t => t.x 0 == 0x22 && t.x 7 == 0x00 && t.pc == 5) = true := by decide

/-- V37. -/
theorem test_pop_r7 : after (with_ (at_ 0 [0x46, 0x07] [(7, 0xF3)] 0) 0xF3 0x10) (fun t => t.x 7 == 0x11) = true := by decide

/-- V72. -/
theorem test_call : after (at_ 6 [0x50, 0x01] [(1, 0x0B)] 0)
    (fun t => t.x 7 == 0xF3 && t.byteAt 0xF3 == 0x08 && t.pc == 0x0B) = true := by decide

/-- V75: the return address does not fit. -/
theorem test_call_at_254 : after (at_ 0xFE [0x50, 0x00] [(0, 0x20)] 0)
    (faultedAs .outOfBounds (at_ 0xFE [0x50, 0x00] [(0, 0x20)] 0)) = true := by decide

/-- V76. -/
theorem test_call_r7 : after (at_ 0 [0x50, 0x07] [] 0)
    (fun t => t.x 7 == 0xF3 && t.byteAt 0xF3 == 0x02 && t.pc == 0xF3) = true := by decide

/-- V73. -/
theorem test_ret : after (with_ (at_ 0x12 [0x11] [(7, 0xF3)] 0) 0xF3 0x08) (fun t => t.pc == 8 && t.x 7 == 0xF4) = true := by
  decide

/-- V42. -/
theorem test_add_wraps : after (at_ 0 [0xA0, 0, 1] [(0, 0xC8), (1, 0x64)] 2)
    (fun t => t.x 0 == 0x2C && t.fl == 2 && t.pc == 3) = true := by decide

/-- V49. -/
theorem test_mul_low_byte : after (at_ 0 [0xA2, 0, 0] [(0, 0xFF)] 0) (fun t => t.x 0 == 0x01) = true := by decide

/-- V45: the operands are not swapped. -/
theorem test_sub_borrow : after (at_ 0 [0xA1, 0, 1] [(0, 5), (1, 9)] 0) (fun t => t.x 0 == 0xFC && t.x 1 == 9) = true := by
  decide

/-- V59. -/
theorem test_div_unsigned : after (at_ 0 [0xA3, 0, 1] [(0, 0xF0), (1, 0x10)] 0) (fun t => t.x 0 == 0x0F) = true := by decide

/-- V57. -/
theorem test_div_zero_by_zero : after (at_ 0 [0xA3, 0, 0] [] 0) (faultedAs .divisionByZero (at_ 0 [0xA3, 0, 0] [] 0)) = true := by
  decide

/-- V61. -/
theorem test_cmp_unsigned : after (at_ 0 [0xA7, 0, 1] [(0, 0x80), (1, 0x7F)] 0) (fun t => t.fl == 2) = true := by decide

/-- V64. -/
theorem test_cmp_overwrites : after (at_ 0 [0xA7, 0, 1] [(0, 1), (1, 2)] 0xFF) (fun t => t.fl == 4) = true := by decide

/-- V71. -/
theorem test_jmp : after (at_ 0 [0x54, 2] [(2, 0xFF)] 0) (fun t => t.pc == 0xFF) = true := by decide

/-- V82 and V85: only bit 0 counts. -/
theorem test_jeq_reads_bit_zero : after (at_ 0 [0x55, 0] [] 0xFE) (fun t => t.pc == 2) = true ∧
    after (at_ 0 [0x55, 7] [] 0x07) (fun t => t.pc == 0xF4) = true := by decide

/-- V80 and V81. -/
theorem test_jne : after (at_ 0x18 [0x56, 4] [(4, 0x0F)] 2) (fun t => t.pc == 0x0F) = true ∧
    after (at_ 0x18 [0x56, 4] [(4, 0x0F)] 1) (fun t => t.pc == 0x1A) = true := by decide

/-! Fault priority (60_exceptions.md R208; V5, V7, V12, V15, V16). -/

theorem test_decode_before_operand_fetch : after (at_ 0xFF [0xFF] [] 0)
    (faultedAs .illegalInstruction (at_ 0xFF [0xFF] [] 0)) = true := by decide
theorem test_operand_check_before_divisor : after (at_ 0 [0xA3, 9, 1] [] 0)
    (faultedAs .illegalInstruction (at_ 0 [0xA3, 9, 1] [] 0)) = true := by decide
theorem test_operand_check_before_return_address : after (at_ 0xFE [0x50, 9] [] 0)
    (faultedAs .illegalInstruction (at_ 0xFE [0x50, 9] [] 0)) = true := by decide
theorem test_operand_fetch_before_operand_check : after (at_ 0xFE [0xA3, 9] [] 0)
    (faultedAs .outOfBounds (at_ 0xFE [0xA3, 9] [] 0)) = true := by decide
theorem test_untaken_jump_still_checked : after (at_ 0 [0x55, 9] [] 0)
    (faultedAs .illegalInstruction (at_ 0 [0x55, 9] [] 0)) = true := by decide
theorem test_off_the_end : after (at_ 256 [] [] 0) (faultedAs .outOfBounds (at_ 256 [] [] 0)) = true := by decide

/-! The host's side. -/

theorem test_comment_is_stripped : parseLine "  101 # a comment".toList = .ok (some 5) := by decide
theorem test_malformed_token : parseLine "not-binary".toList = .error .malformedProgram := by decide
theorem test_render_prn : renderPrn 72 = ['7', '2', '\n'] := by decide
theorem test_trace_at_top : (at_ 0xFE [0x47, 0x05] [] 1).trace.next = [0x47, 0x05] := by decide

/-! ## Witnesses: the hypotheses of the statements can be met -/

theorem witness_DecodeOfEncode : Config.decided.Valid ∧ otherConfig.Valid ∧ (Instr.ldi 7 0xFF).WellFormed ∧ (Instr.cmp 7 7).WellFormed ∧ 
    Instr.ret.WellFormed := by decide
theorem witness_EncodeOfDecode : otherConfig.Valid ∧ decode otherConfig [0x44, 7] = .ok (.push 7, []) ∧
    decode .decided [0xA7, 7, 7, 0xFF] = .ok (.cmp 7 7, [0xFF]) := by decide
theorem witness_RegisterBytesAboveSevenDoNotDecode :
    otherConfig.Valid ∧ (Op.jeq.format ≠ .f0 ∧ 7 < (8 : Byte).toNat) ∧ (Op.add.format = .f2r ∧ 7 < (8 : Byte).toNat) := by decide
theorem witness_StepRunsDecodedInstruction :
    (at_ 0xFD [0x82, 7, 0xFF] [] 0).run = .running ∧
    decode .decided (at_ 0xFD [0x82, 7, 0xFF] [] 0).codeAt = .ok (.ldi 7 0xFF, []) := by decide
/-- One state for each outcome of the decoder. -/
theorem witness_StepRefinesTheDecoder : otherConfig.Valid ∧ Config.decided.Valid ∧
    (at_ 0xFF [0x01] [] 0).run = .running ∧ decode .decided (at_ 0xFF [0x01] [] 0).codeAt = .ok (.hlt, []) ∧
    decode .decided (at_ 0xFF [0x47] [] 0).codeAt = .error .truncated ∧ decode .decided (at_ 256 [] [] 0).codeAt = .error .truncated ∧
    decode .decided (at_ 0xFF [0x00] [] 0).codeAt = .error (.illegalOpcode 0x00) ∧
    decode .decided (at_ 0xFE [0x47, 8] [] 0).codeAt = .error .illegalRegister := by decide
theorem witness_StepDefinedExactlyWhileRunning :
    State.reset.run = .running ∧ (State.reset.setRun .halted).run ≠ .running ∧
    (State.reset.setRun (.faulted .outOfBounds)).run ≠ .running := by decide
theorem witness_FaultsArePrecise :
    ∃ t, step (at_ 0 [0xA3, 0, 1] [] 0) = .next t ∧ (t.run == .faulted .divisionByZero) = true := of_after (by decide)
/-- Each case of the list, at the boundary. -/
theorem witness_OutOfBoundsExactly :
    after (at_ 256 [] [] 0) (fun t => t.run == .faulted .outOfBounds) = true ∧
    after (at_ 255 [0x47] [] 0) (fun t => t.run == .faulted .outOfBounds) = true ∧
    after (at_ 254 [0x82, 0] [] 0) (fun t => t.run == .faulted .outOfBounds) = true ∧
    after (at_ 254 [0x50, 7] [] 0) (fun t => t.run == .faulted .outOfBounds) = true ∧
    after (at_ 253 [0x50, 7] [] 0) (fun t => t.run == .running) = true ∧
    (at_ 256 [] [] 0).pc.toNat ≤ 256 := by decide
theorem witness_DivisionByZeroExactly :
    after (at_ 253 [0xA3, 7, 1] [] 0) (fun t => t.run == .faulted .divisionByZero) = true ∧
    (at_ 253 [0xA3, 7, 1] [] 0).opAt = some .div ∧ (at_ 253 [0xA3, 7, 1] [] 0).opb = regByte 1 ∧
    (at_ 253 [0xA3, 7, 1] [] 0).x 1 = 0 ∧
    after (at_ 253 [0xA3, 7, 1] [(1, 1)] 0) (fun t => t.run == .running) = true := by decide
theorem witness_IllegalInstructionExactly :
    after (at_ 255 [0x00] [] 0) (fun t => t.run == .faulted .illegalInstruction) = true ∧
    after (at_ 254 [0x47, 8] [] 0) (fun t => t.run == .faulted .illegalInstruction) = true ∧
    after (at_ 253 [0xA7, 7, 8] [] 0) (fun t => t.run == .faulted .illegalInstruction) = true ∧
    after (at_ 253 [0x82, 7, 8] [] 0) (fun t => t.run == .running) = true := by decide
theorem witness_UnsupportedOperationUnreachable : ∃ t, step State.reset = .next t ∧ (t.pc == 0) = true := of_after (by decide)
/-- Both clauses of the common faults, at the boundary of each format. -/
theorem witness_CommonFaults :
    (firstOutOfBounds Op.hlt.format ≤ (at_ 256 [] [] 0).pc.toNat ∧ (at_ 256 [] [] 0).pc.toNat = 256) ∧
    (firstOutOfBounds Op.jne.format ≤ (at_ 255 [0x56] [] 0).pc.toNat ∧ (at_ 255 [0x56] [] 0).opAt = some .jne) ∧
    (firstOutOfBounds Op.sub.format ≤ (at_ 254 [0xA1] [] 0).pc.toNat ∧ (at_ 254 [0xA1] [] 0).opAt = some .sub) ∧
    (firstOutOfBounds Op.ldi.format ≤ (at_ 254 [0x82] [] 0).pc.toNat ∧ (at_ 254 [0x82] [] 0).opAt = some .ldi) ∧
    ((at_ 254 [0x56, 8] [] 0).pc.toNat < firstOutOfBounds Op.jne.format ∧ (at_ 254 [0x56, 8] [] 0).opAt = some .jne ∧
      7 < (at_ 254 [0x56, 8] [] 0).opa.toNat) ∧
    ((at_ 253 [0xA1, 7, 8] [] 0).pc.toNat < firstOutOfBounds Op.sub.format ∧
      (at_ 253 [0xA1, 7, 8] [] 0).opAt = some .sub ∧ 7 < (at_ 253 [0xA1, 7, 8] [] 0).opb.toNat) := by decide
theorem witness_IllFormedInstructionIsIllegal : (Instr.call 8).wf = false ∧ (Instr.div 0 0xFF).wf = false := by decide
theorem witness_PrnEmitsRegister :
    (at_ 254 [0x47, 7] [] 0).run = .running ∧ fetch .decided (at_ 254 [0x47, 7] [] 0) = .ok (.prn (regByte 7)) := by decide
theorem witness_PushThenPopRestores : (0 : Reg) ≠ 7 ∧ (6 : Reg) ≠ 7 := by decide
theorem witness_StackWrapsWithoutFault :
    (at_ 253 [] [(7, 0x00)] 0).x 7 = 0x00 ∧ (at_ 253 [] [(7, 0xFF)] 0).x 7 = 0xFF ∧
    (at_ 253 [] [(7, 0x00)] 0).pc.toNat + 2 ≤ 255 := by decide
theorem witness_DivFloorsOrFaults : (at_ 0 [] [(1, 1)] 0).x 1 ≠ 0 ∧ (at_ 0 [] [] 0).x 1 = 0 := by decide
/-- Equal, greater and less. -/
theorem witness_CmpWritesWholeFlags :
    (at_ 0 [] [(0, 5), (1, 5)] 0).x 0 = (at_ 0 [] [(0, 5), (1, 5)] 0).x 1 ∧
    ((at_ 0 [] [(0, 0x80), (1, 0x7F)] 0).x 0).toNat > ((at_ 0 [] [(0, 0x80), (1, 0x7F)] 0).x 1).toNat ∧
    ((at_ 0 [] [(0, 0), (1, 0xFF)] 0).x 0).toNat < ((at_ 0 [] [(0, 0), (1, 0xFF)] 0).x 1).toNat := by decide
theorem witness_SameRegisterTwice : (at_ 0 [] [(7, 0)] 0).x 7 = 0 ∧ (at_ 0 [] [] 0).x 7 ≠ 0 := by decide
theorem witness_CallPushesReturnAddress :
    (at_ 253 [] [] 0).pc.toNat + 2 ≤ 255 ∧ (at_ 254 [] [] 0).pc.toNat + 2 > 255 := by decide
/-- The state right after the CALL is itself one the RET may start from. -/
theorem witness_CallThenRetReturns :
    (6 : Reg) ≠ 7 ∧ (at_ 253 [0x50, 6] [] 0).pc.toNat + 2 ≤ 255 ∧
    after (at_ 253 [0x50, 6] [] 0) (fun t => t.byteAt (t.x 7).toNat == 255) = true := by decide
/-- Bit 0 set and clear. -/
theorem witness_JeqJne : (at_ 0 [] [] 0x01).fl.getLsbD 0 = true ∧ (at_ 0 [] [] 0xFE).fl.getLsbD 0 = false := by decide
theorem witness_FlagsWrittenOnlyByCmp :
    ∃ t, step (at_ 253 [0xA7, 0, 1] [] 0xFF) = .next t ∧ (t.fl != 0xFF) = true := of_after (by decide)
theorem witness_MemoryWrittenOnlyByPushAndCall :
    (∃ t, step (at_ 0 [0x45, 7] [] 0) = .next t ∧ (t.byteAt 0xF3 != (at_ 0 [0x45, 7] [] 0).byteAt 0xF3) = true) ∧
    (∃ t, step (at_ 0 [0x50, 7] [] 0) = .next t ∧ (t.byteAt 0xF3 != (at_ 0 [0x50, 7] [] 0).byteAt 0xF3) = true) :=
  ⟨of_after (by decide), of_after (by decide)⟩
theorem witness_RegistersWrittenAsListed :
    (∃ t, step (at_ 0 [0x82, 7, 1] [] 0) = .next t ∧ (t.x 7 != (at_ 0 [0x82, 7, 1] [] 0).x 7) = true) ∧
    (∃ t, step (at_ 0 [0x11] [] 0) = .next t ∧ (t.x 7 != (at_ 0 [0x11] [] 0).x 7) = true) :=
  ⟨of_after (by decide), of_after (by decide)⟩
theorem witness_OutputOnlyByPrn :
    (∃ t, step (at_ 0 [0x47, 7] [] 0) = .next t ∧ (t.out == [0xF4]) = true) ∧
    (∃ t, step (at_ 255 [0x47] [] 0) = .next t ∧ (t.out == []) = true) :=
  ⟨of_after (by decide), of_after (by decide)⟩
theorem witness_HaltedOnlyByHlt :
    (∃ t, step (at_ 255 [0x01] [] 0) = .next t ∧ (t.run == .halted) = true) ∧
    (∃ t, step (at_ 256 [] [] 0) = .next t ∧ (t.run != .halted) = true) :=
  ⟨of_after (by decide), of_after (by decide)⟩
/-- A sequential step at the top, each jump, and an untaken branch at the top. -/
theorem witness_PcAfterEachStep :
    after (at_ 253 [0x82, 0, 0] [] 0) (fun t => t.run == .running && t.pc == 256) = true ∧
    after (at_ 0 [0x11] [] 0) (fun t => t.run == .running) = true ∧
    after (at_ 254 [0x54, 7] [] 0) (fun t => t.run == .running) = true ∧
    after (at_ 253 [0x50, 7] [] 0) (fun t => t.run == .running) = true ∧
    after (at_ 254 [0x55, 7] [] 0) (fun t => t.run == .running && t.pc == 256) = true ∧
    after (at_ 254 [0x56, 7] [] 1) (fun t => t.run == .running && t.pc == 256) = true := by decide
/-- P9 of 95_test_vectors.md for PUSH, with a legal and an illegal byte; and a CALL that pushes just where it goes. -/
theorem witness_PushedByteIsFetched :
    (at_ 6 [0x45, 0] [(7, 9), (0, 1)] 0).run = .running ∧ (at_ 6 [0x45, 0] [(7, 9), (0, 1)] 0).x 0 = 0x01 ∧
    pushAddr (at_ 6 [0x45, 0] [(7, 9), (0, 1)] 0) = 8 ∧
    after (at_ 6 [0x45, 0] [(7, 9), (0, 1)] 0) (fun t => t.pc == 8 && t.opcode == 0x01) = true ∧
    decodeOpcode .decided 0x00 = none ∧
    after (at_ 6 [0x45, 0] [(7, 9), (0, 0)] 0) (fun t => t.pc == 8 && t.opcode == 0x00) = true ∧
    after (at_ 253 [0x50, 7] [(7, 9)] 0) (fun t => t.pc == 8 && t.opcode == 255) = true := by decide
theorem witness_CanonicalMemoriesAreEqual :
    Memory.wf [(0, 1), (255, 2)] ∧ Memory.write (Memory.write [] 255 2) 0 1 = [(0, 1), (255, 2)] ∧
    Memory.write [(0, 1), (255, 2)] 0 0 = [(255, 2)] ∧ ¬ Memory.wf [(0, 0)] ∧ ¬ Memory.wf [(256, 1)] ∧
    ¬ Memory.wf [(1, 1), (0, 1)] := by decide
/-- The longest program. -/
theorem witness_LaunchFollowsResetTable : (List.replicate 256 (0x01 : Byte)).length ≤ 256 := by rw [List.length_replicate]
/-- The invariant with pc at its upper bound, and at an instruction that takes it there. -/
theorem witness_StepKeepsInvariant :
    otherConfig.Valid ∧ Invariant (at_ 256 [] [] 0) ∧ Invariant (at_ 255 [0x01] [] 0) ∧ ∃ t, step (at_ 255 [0x01] [] 0) = .next t ∧ (t.pc == 256) = true :=
  ⟨by decide, by unfold Invariant; decide, by unfold Invariant; decide, of_after (by decide)⟩
/-- A launched run of one step. -/
theorem witness_LaunchedRuns : ∃ t, Steps .decided (launch .decided [0x01] 0xFF) t ∧ (t.run == .halted) = true := by
  obtain ⟨t, h, c⟩ := of_after (s := launch .decided [0x01] 0xFF) (check := fun t => t.run == .halted) (by decide +kernel)
  exact ⟨t, ⟨1, .tail .refl h⟩, c⟩
theorem witness_HaltedRunsNeverFault :
    EndsWell .decided (launch .decided [0x01] 0) ∧ EndsBadly .decided (launch .decided [0x00] 0) := by
  obtain ⟨t, h, c⟩ := of_after (s := launch .decided [0x01] 0) (check := fun t => t.run == .halted) (by decide +kernel)
  obtain ⟨u, k, d⟩ :=
    of_after (s := launch .decided [0x00] 0) (check := fun t => t.run == .faulted .illegalInstruction) (by decide +kernel)
  exact ⟨⟨t, ⟨1, .tail .refl h⟩, by simpa using c⟩, ⟨u, _, ⟨1, .tail .refl k⟩, by simpa using d⟩⟩
/-- A jump to itself: JMP R0 with `x[0]` = 0. -/
theorem step_self_jump : stepWith .decided (at_ 0 [0x54, 0] [] 0) = .next (at_ 0 [0x54, 0] [] 0) := by rfl
theorem witness_NeverEnds : NeverEnds .decided (at_ 0 [0x54, 0] [] 0) := fun n => by
  induction n with
  | zero => exact ⟨_, .refl, rfl⟩
  | succ n ih => exact ⟨_, (stepsIn_self step_self_jump n).tail step_self_jump, rfl⟩
/-- Each outcome of a bounded run: the third after any number of steps. -/
theorem witness_BoundedRunReportsExactly :
    runFor .decided 0 (at_ 0 [0x01] [] 0) = .stillRunning (at_ 0 [0x01] [] 0) ∧
    (∃ t, runFor .decided 5 (at_ 0 [0x01] [] 0) = .halted t) ∧
    (∃ t, runFor .decided 5 (at_ 0 [0x00] [] 0) = .faulted .illegalInstruction t) ∧
    runFor .decided 5 (at_ 0 [0x54, 0] [] 0) = .stillRunning (at_ 0 [0x54, 0] [] 0) :=
  ⟨rfl, ⟨_, rfl⟩, ⟨_, rfl⟩, rfl⟩
/-- A line for each clause, at the boundary values. -/
theorem witness_ImageLineMeaning :
    trimChars (" \t# only a comment".toList.takeWhile (· ≠ '#')) = [] ∧
    parseLine "10000002".toList = .error .malformedProgram ∧ parseLine "100000000".toList = .error .malformedProgram ∧
    parseLine "11111111".toList = .ok (some 0xFF) ∧ parseLine "011111111".toList = .ok (some 0xFF) := by decide
/-- A text with a line without a value and one with, and one with a malformed line. -/
theorem witness_LoadStartsOnlyWholePrograms :
    (splitLines "# x\n1".toList).map parseLine = [none, some 0x01].map .ok ∧
    (∃ line ∈ splitLines "1\n2\n".toList, parseLine line = .error .malformedProgram) ∧
    parseImage "# x\n1".toList = .ok [0x01] ∧ parseImage "1\n2\n".toList = .error .malformedProgram := by decide

end Sys2Proof.Tests
end

section
/-! PROOFS. The architectural state (10_state.md): what one instruction can do to it, said once as `Effect`, and the
statements about steps, memory, the launch and runs that follow. -/

namespace Sys2Proof.Machine

/-! ## What an instruction can do -/

/-- Everything a well-formed instruction can do in `s`, one constructor per kind of effect, with its guards. -/
inductive Effect (s : State) : Instr → State → Prop
  /-- HLT (41_system_and_data.md R141) -/
  | hlt : Effect s .hlt ((s.setRun .halted).advance 1)
  /-- LDI, or an ALU instruction with a result: one byte to the first operand's register (41_system_and_data.md R142,
  43_alu.md R162 to R165) -/
  | write {i : Instr} {r : Reg} (v : Byte) (hop : i.op ∈ [Op.ldi, Op.add, Op.sub, Op.mul, Op.div])
      (hr : i.operandBytes.head? = some (regByte r)) : Effect s i ((s.setReg r v).advance 3)
  /-- CMP (43_alu.md R166) -/
  | cmp (a b : Reg) : Effect s (.cmp (regByte a) (regByte b)) ((s.setFl (compareFlags (s.x a) (s.x b))).advance 3)
  /-- PRN (41_system_and_data.md R143) -/
  | prn (r : Reg) : Effect s (.prn (regByte r)) ((s.emit (s.x r)).advance 2)
  /-- PUSH (42_stack.md R151) -/
  | push (r : Reg) : Effect s (.push (regByte r))
      (((s.setReg 7 (s.sp - 1)).setByte (pushAddr s) ((s.setReg 7 (s.sp - 1)).x r)).advance 2)
  /-- POP (42_stack.md R152) -/
  | pop (r : Reg) : Effect s (.pop (regByte r))
      (((s.setReg r (s.byteAt s.sp.toNat)).setReg 7 ((s.setReg r (s.byteAt s.sp.toNat)).sp + 1)).advance 2)
  /-- CALL whose return address fits (44_control_transfer.md R182) -/
  | call (r : Reg) (hfit : s.pc.toNat + 2 ≤ 255) : Effect s (.call (regByte r))
      (((s.setReg 7 (s.sp - 1)).setByte (pushAddr s) (BitVec.ofNat 8 (s.pc.toNat + 2))).jump
        ((s.setReg 7 (s.sp - 1)).x r))
  /-- RET (44_control_transfer.md R184) -/
  | ret : Effect s .ret ((s.jump (s.byteAt s.sp.toNat)).setReg 7 (s.sp + 1))
  /-- JMP, JEQ and JNE, taken or not (44_control_transfer.md R181, R185, R186) -/
  | branch {i : Instr} {r : Reg} (taken : Bool) (hop : i.op ∈ [Op.jmp, Op.jeq, Op.jne])
      (hr : i.operandBytes.head? = some (regByte r))
      (htaken : (i.op = .jmp → taken = true) ∧ (i.op = .jeq → taken = flagE s.fl) ∧
        (i.op = .jne → taken = !flagE s.fl)) :
      Effect s i (if taken then s.jump (s.x r) else s.advance 2)
  /-- DIV by zero (43_alu.md R165) -/
  | divideByZero (a b : Reg) (hzero : s.x b = 0) :
      Effect s (.div (regByte a) (regByte b)) (s.setRun (.faulted .divisionByZero))
  /-- CALL whose return address does not fit (44_control_transfer.md R190) -/
  | callOutOfBounds (r : Reg) (hunfit : s.pc.toNat + 2 > 255) :
      Effect s (.call (regByte r)) (s.setRun (.faulted .outOfBounds))

/-- A well-formed instruction has one of the effects of `Effect`. -/
theorem exec_effect {i : Instr} (hw : i.WellFormed) (s : State) : ∃ t, exec i s = .next t ∧ Effect s i t := by
  rcases wellFormed_cases hw with rfl | rfl | ⟨r, imm, rfl⟩ | ⟨r, rfl | rfl | rfl | rfl | rfl | rfl | rfl⟩ |
    ⟨a, b, rfl | rfl | rfl | rfl | rfl⟩
  · exact ⟨_, exec_hlt s, .hlt⟩
  · exact ⟨_, exec_ret s, .ret⟩
  · exact ⟨_, exec_ldi s r imm, .write imm (by simp [Instr.op]) rfl⟩
  · exact ⟨_, exec_prn s r, .prn r⟩
  · exact ⟨_, exec_push s r, .push r⟩
  · exact ⟨_, exec_pop s r, .pop r⟩
  · rcases Nat.lt_or_ge 255 (s.pc.toNat + 2) with hpc | hpc
    · exact ⟨_, exec_call_unfit s r hpc, .callOutOfBounds r hpc⟩
    · exact ⟨_, exec_call s r hpc, .call r hpc⟩
  · exact ⟨_, exec_jmp s r, .branch true (by simp [Instr.op]) rfl (by simp [Instr.op])⟩
  · exact ⟨_, exec_jeq s r, .branch _ (by simp [Instr.op]) rfl (by simp [Instr.op])⟩
  · exact ⟨_, exec_jne s r, .branch _ (by simp [Instr.op]) rfl (by simp [Instr.op])⟩
  · exact ⟨_, exec_add s a b, .write _ (by simp [Instr.op]) rfl⟩
  · exact ⟨_, exec_sub s a b, .write _ (by simp [Instr.op]) rfl⟩
  · exact ⟨_, exec_mul s a b, .write _ (by simp [Instr.op]) rfl⟩
  · by_cases hb : s.x b = 0
    · exact ⟨_, exec_div_zero s a b hb, .divideByZero a b hb⟩
    · exact ⟨_, exec_div s a b hb, .write _ (by simp [Instr.op]) rfl⟩
  · exact ⟨_, exec_cmp s a b, .cmp a b⟩

/-- A step, whatever the configuration, begins Running and has the effect of the fetched instruction, or raises the
fault the fetch met. -/
theorem stepWith_effect {c : Config} {s t : State} (h : stepWith c s = .next t) :
    s.run = .running ∧
    ((∃ i, fetch c s = .ok i ∧ Effect s i t) ∨ (∃ f, fetch c s = .error f ∧ t = s.setRun (.faulted f))) := by
  obtain ⟨hrun, ⟨i, hf, he⟩ | hfault⟩ := stepWith_cases h
  · obtain ⟨u, hu, heff⟩ := exec_effect (wellFormed_of_fetch hf) s
    obtain rfl : u = t := Host.Outcome.next.inj (hu.symm.trans he)
    exact ⟨hrun, .inl ⟨i, hf, heff⟩⟩
  · exact ⟨hrun, .inr hfault⟩

/-- A step from a Running state always answers a next state. -/
theorem stepWith_next (c : Config) {s : State} (h : s.run = .running) : ∃ t, stepWith c s = .next t := by
  rw [stepWith_running c h]
  cases fetch c s with
  | error f => exact ⟨_, rfl⟩
  | ok i => exact exec_next s i

/-! ## The invariant -/

/-- Advancing inside the memory leaves pc in 0 to 256: the 9 bits of pc do not wrap (10_state.md R26). -/
theorem State.pc_advance_le {s : State} {n : Nat} (h : s.pc.toNat + n ≤ 256) : (s.advance n).pc.toNat ≤ 256 := by
  rw [State.pc_advance, BitVec.toNat_add, BitVec.toNat_ofNat]
  omega

theorem State.pc_jump_le (s : State) (v : Byte) : (s.jump v).pc.toNat ≤ 256 := by
  rw [State.pc_jump, byteToPc_toNat]
  omega

namespace Effect

variable {s t : State} {i : Instr}

/-- From an instruction all of whose bytes lie in memory, pc stays in 0 to 256 (10_state.md R24, R26). -/
theorem pc_le (h : Effect s i t) (hfit : s.pc.toNat + i.op.format.operands < 256) : t.pc.toNat ≤ 256 := by
  cases h with
  | hlt | cmp _ _ | prn _ | push _ | pop _ => exact State.pc_advance_le hfit
  | write v hop hr =>
    have operands_of_write : ∀ o ∈ [Op.ldi, .add, .sub, .mul, .div], o.format.operands = 2 := by decide
    rw [operands_of_write i.op hop] at hfit
    exact State.pc_advance_le hfit
  | branch taken hop hr htaken =>
    have operands_of_branch : ∀ o ∈ [Op.jmp, .jeq, .jne], o.format.operands = 1 := by decide
    rw [operands_of_branch i.op hop] at hfit
    cases taken with
    | true => exact State.pc_jump_le _ _
    | false => exact State.pc_advance_le hfit
  | call _ _ => exact State.pc_jump_le _ _
  | ret => exact State.pc_jump_le s _
  | divideByZero _ _ _ | callOutOfBounds _ _ =>
    simp only [State.pc_setRun]
    omega

/-- Every instruction keeps the canonical form of memory: PUSH and CALL write inside it, the others write nothing. -/
theorem wf_mem (h : Effect s i t) (hs : Memory.wf s.mem) : Memory.wf t.mem := by
  cases h with
  | push _ | call _ _ => exact Memory.wf_write _ (pushAddr_lt s) hs
  | branch taken _ _ _ => cases taken <;> exact hs
  | hlt | write _ _ _ | cmp _ _ | prn _ | pop _ | ret | divideByZero _ _ _ | callOutOfBounds _ _ => exact hs

end Effect

/-- A step keeps the invariant, at every valid configuration. -/
theorem invariant_of_stepWith {c : Config} (hc : c.Valid) {s t : State} (hs : Invariant s)
    (h : stepWith c s = .next t) : Invariant t := by
  obtain ⟨hpc, hmem⟩ := hs
  obtain ⟨-, ⟨i, hf, heff⟩ | ⟨f, -, rfl⟩⟩ := stepWith_effect h
  · obtain ⟨-, -, -, -, hfit⟩ := fetchWith_ok hc hf
    exact ⟨heff.pc_le hfit, heff.wf_mem hmem⟩
  · exact ⟨hpc, hmem⟩

/-- Settles O49, from the effect of each instruction on pc and on memory. -/
theorem stepKeepsInvariant : Obligations.StepKeepsInvariant :=
  ⟨fun _ _ hs h => invariant_of_stepWith Config.decided_valid hs h, fun _ _ _ hc hs h => invariant_of_stepWith hc hs h⟩

/-- Settles O48: pc is 0 and memory lists nothing. -/
theorem resetMeetsInvariant : Obligations.ResetMeetsInvariant := ⟨by decide, Memory.wf_nil⟩

/-- What every step keeps holds all along a run. -/
theorem StepsIn.keeps {c : Config} {P : State → Prop} (hstep : ∀ {t u}, P t → stepWith c t = .next u → P u)
    {s t : State} {n : Nat} (h : StepsIn c s n t) (hs : P s) : P t := by
  induction h with
  | refl => exact hs
  | tail _ h ih => exact hstep ih h

/-- Settles O50: the launch meets the invariant and every step keeps it. -/
theorem launchedRunsKeepInvariant : Obligations.LaunchedRunsKeepInvariant := by
  intro c program flReset t hc ⟨n, h⟩
  have hlaunch : Invariant (launch c program flReset) :=
    ⟨by rw [pc_launch]; decide, wf_launch c program flReset⟩
  exact h.keeps (invariant_of_stepWith hc) hlaunch

/-! ## The run state -/

/-- Settles O9: a Running state's step runs an instruction or raises a fault, and both answer a next state. -/
theorem stepDefinedExactlyWhileRunning : Obligations.StepDefinedExactlyWhileRunning := fun _ =>
  ⟨fun ⟨_, h⟩ => running_of_stepWith h, stepWith_next .decided⟩

/-- Of the instructions only HLT ends Halted (10_state.md R29). -/
theorem Effect.halted_iff {s t : State} {i : Instr} (h : Effect s i t) (hs : s.run = .running) :
    t.run = .halted ↔ i.op = .hlt := by
  cases h with
  | hlt => exact iff_of_true rfl rfl
  | write _ hop _ =>
    have hne : i.op ≠ .hlt := ne_of_mem_of_not_mem hop (by decide)
    simp [hs, hne]
  | branch taken hop _ _ =>
    have hne : i.op ≠ .hlt := ne_of_mem_of_not_mem hop (by decide)
    cases taken <;> simp [hs, hne]
  | cmp _ _ | prn _ | push _ | pop _ | call _ _ | ret | divideByZero _ _ _ | callOutOfBounds _ _ =>
    simp [hs, Instr.op]

/-- An operand byte whose address lies in memory is fetched; a byte beyond the operands is read as zero. -/
theorem fetchOperand_eq {s : State} {n k : Nat} (h : k ≤ n → s.pc.toNat + k < Config.memSize) :
    fetchOperand s n k = .ok (if k ≤ n then s.byteAt (s.pc.toNat + k) else 0) := by
  unfold fetchOperand
  split
  · exact memRead_ok (h ‹_›)
  · rfl

/-- The converse of `fetchWith_ok`: a well-formed instruction all of whose bytes lie in memory is fetched. -/
theorem fetchWith_eq_ok {c : Config} (hc : c.Valid) {s : State} {o : Op} (ho : decodeOpcode c s.opcode = some o)
    (hfit : s.pc.toNat + o.format.operands < Config.memSize) (hw : (o.build s.opa s.opb).WellFormed) :
    fetch c s = .ok (o.build s.opa s.opb) := by
  have hn : nops s.opcode = o.format.operands := by rw [← opcodes_of_decodeOpcode ho, hc.nops]
  have hopcode : memRead s s.pc.toNat = .ok s.opcode := memRead_ok (by omega)
  have hopa : fetchOperand s o.format.operands 1 = .ok (if 1 ≤ o.format.operands then s.opa else 0) :=
    fetchOperand_eq (by omega)
  have hopb : fetchOperand s o.format.operands 2 = .ok (if 2 ≤ o.format.operands then s.opb else 0) :=
    fetchOperand_eq (by omega)
  have hbuild : o.build (if 1 ≤ o.format.operands then s.opa else 0) (if 2 ≤ o.format.operands then s.opb else 0) =
      o.build s.opa s.opb := build_congr o (if_pos ·) (if_pos ·)
  simp only [fetch, hopcode, ho, hn, hopa, hopb, hbuild, if_pos hw]

/-- Settles O42: where HLT stands at pc, a one-byte instruction, it is fetched, and no other instruction halts. -/
theorem haltedOnlyByHlt : Obligations.HaltedOnlyByHlt := by
  intro s t h
  obtain ⟨hrun, ⟨i, hf, heff⟩ | ⟨f, hf, rfl⟩⟩ := stepWith_effect h
  · obtain ⟨hpc, hop, -⟩ := fetch_ok hf
    rw [heff.halted_iff hrun, hop, Option.some.injEq]
    exact ⟨fun hi => ⟨Nat.le_of_lt_succ hpc, hi⟩, And.right⟩
  · refine ⟨fun hhalted => (by simp at hhalted), fun ⟨hpc, hop⟩ => ?_⟩
    have hfetched := fetchWith_eq_ok Config.decided_valid hop (Nat.lt_succ_of_le hpc) rfl
    simp [hf] at hfetched

/-! ## The output stream -/

/-- PRN appends its register's value to the output, no other instruction touches it (10_state.md R34). -/
theorem Effect.out_cases {s t : State} {i : Instr} (h : Effect s i t) :
    (∃ r, i = .prn (regByte r) ∧ t = (s.emit (s.x r)).advance 2) ∨ (i.op ≠ .prn ∧ t.out = s.out) := by
  cases h with
  | prn r => exact .inl ⟨r, rfl, rfl⟩
  | write _ hop _ => exact .inr ⟨ne_of_mem_of_not_mem hop (by decide), rfl⟩
  | branch taken hop _ _ => exact .inr ⟨ne_of_mem_of_not_mem hop (by decide), by cases taken <;> rfl⟩
  | hlt | cmp _ _ | push _ | pop _ | call _ _ | ret | divideByZero _ _ _ | callOutOfBounds _ _ =>
    exact .inr ⟨by simp [Instr.op], rfl⟩

/-- The first operand byte of an instruction is the first argument it was built of. -/
theorem eq_of_head_operandBytes_build {o : Op} {a b v : Byte} (h : (o.build a b).operandBytes.head? = some v) :
    a = v := by
  cases o with
  | hlt | ret => cases h
  | _ => exact Option.some.inj h

/-- The first operand of the fetched instruction is the byte after the opcode. -/
theorem opa_of_fetch {s : State} {i : Instr} {v : Byte} (hf : fetch .decided s = .ok i)
    (hv : i.operandBytes.head? = some v) : s.opa = v := by
  obtain ⟨-, -, hi, -⟩ := fetch_ok hf
  rw [hi] at hv
  exact eq_of_head_operandBytes_build hv

/-- Settles O41, from what each instruction does to the output. -/
theorem outputOnlyByPrn : Obligations.OutputOnlyByPrn := by
  intro s t h
  obtain ⟨hrun, ⟨i, hf, heff⟩ | ⟨f, -, rfl⟩⟩ := stepWith_effect h
  · obtain ⟨-, hop, -⟩ := fetch_ok hf
    rcases heff.out_cases with ⟨r, rfl, rfl⟩ | ⟨hne, hout⟩
    · exact .inr ⟨hop, hrun, r, opa_of_fetch hf rfl, rfl⟩
    · exact .inl ⟨hout, fun hprn => absurd (Option.some.inj (hop.symm.trans hprn)) hne⟩
  · exact .inl ⟨rfl, fun _ => ⟨f, rfl⟩⟩

theorem out_prefix_of_stepWith {c : Config} {s t : State} (h : stepWith c s = .next t) : s.out <+: t.out := by
  obtain ⟨-, ⟨i, -, heff⟩ | ⟨f, -, rfl⟩⟩ := stepWith_effect h
  · rcases heff.out_cases with ⟨r, -, rfl⟩ | ⟨-, hout⟩
    · exact List.prefix_append s.out [s.x r]
    · exact hout ▸ List.prefix_refl s.out
  · exact List.prefix_refl s.out

/-- Settles O52: no step takes output back. -/
theorem outputOnlyGrows : Obligations.OutputOnlyGrows := fun _ s _ ⟨_, h⟩ =>
  h.keeps (P := fun u => s.out <+: u.out) (fun hpre hstep => hpre.trans (out_prefix_of_stepWith hstep))
    (List.prefix_refl s.out)

/-! ## The registers -/

/-- A write to `x[r]` changes no other register. -/
theorem State.eq_of_x_setReg_ne {s : State} {r q : Reg} {v : Byte} (h : (s.setReg r v).x q ≠ s.x q) : q = r :=
  not_imp_comm.mp (State.x_setReg_ne s v) h

/-- The registers each instruction writes (10_state.md R21): its first operand, or SP by the stack. -/
theorem Effect.reg_written {s t : State} {i : Instr} {q : Reg} (h : Effect s i t) (hq : t.x q ≠ s.x q) :
    (i.op ∈ [Op.ldi, Op.pop, Op.add, Op.sub, Op.mul, Op.div] ∧ i.operandBytes.head? = some (regByte q)) ∨
    (q = 7 ∧ i.op ∈ [Op.push, Op.pop, Op.call, Op.ret]) := by
  cases h with
  | write v hop hr =>
    have writes_listed : [Op.ldi, .add, .sub, .mul, .div] ⊆ [Op.ldi, .pop, .add, .sub, .mul, .div] := by decide
    obtain rfl := State.eq_of_x_setReg_ne hq
    exact .inl ⟨writes_listed hop, hr⟩
  | pop r =>
    by_cases h7 : q = 7
    · exact .inr ⟨h7, by simp [Instr.op]⟩
    · rw [State.x_advance, State.x_setReg_ne _ _ h7] at hq
      obtain rfl := State.eq_of_x_setReg_ne hq
      exact .inl ⟨by simp [Instr.op], rfl⟩
  | push _ | call _ _ | ret => exact .inr ⟨State.eq_of_x_setReg_ne hq, by simp [Instr.op]⟩
  | branch taken _ _ _ => exact absurd (by cases taken <;> rfl) hq
  | hlt | cmp _ _ | prn _ | divideByZero _ _ _ | callOutOfBounds _ _ => exact absurd rfl hq

/-- Settles O40, from the registers each instruction writes. -/
theorem registersWrittenAsListed : Obligations.RegistersWrittenAsListed := by
  intro s t r h hr
  obtain ⟨-, ⟨i, hf, heff⟩ | ⟨f, -, rfl⟩⟩ := stepWith_effect h
  · obtain ⟨-, hop, -⟩ := fetch_ok hf
    rcases heff.reg_written hr with ⟨hlisted, hfirst⟩ | ⟨h7, hlisted⟩
    · exact .inl ⟨i.op, hlisted, hop, opa_of_fetch hf hfirst⟩
    · exact .inr ⟨h7, i.op, hlisted, hop⟩
  · exact absurd rfl hr

/-! ## Memory -/

theorem Memory.read_cons_self (m : Memory) (a : Nat) (v : Byte) : Memory.read ((a, v) :: m) a = v := if_pos rfl

theorem Memory.read_cons_ne (m : Memory) {a b : Nat} (v : Byte) (h : b ≠ a) :
    Memory.read ((a, v) :: m) b = Memory.read m b := if_neg h

theorem Memory.wf_cons {m : Memory} {a : Nat} {v : Byte} :
    Memory.wf ((a, v) :: m) ↔ (∀ c ∈ m, a < c.1) ∧ a < Config.memSize ∧ v ≠ Memory.unlisted ∧ Memory.wf m := by
  simp only [Memory.wf, List.pairwise_cons, List.forall_mem_cons]
  tauto

/-- A cell listed below every cell of another memory makes the two read differently at its address. -/
theorem Memory.read_cons_ne_of_below {m m' : Memory} {a : Nat} {v : Byte} (hv : v ≠ Memory.unlisted)
    (hbelow : ∀ c ∈ m', a < c.1) : Memory.read ((a, v) :: m) a ≠ Memory.read m' a := by
  rwa [Memory.read_cons_self, Memory.read_below hbelow]

/-- An address below the first cell of a rising list is below all its cells. -/
theorem Memory.below_cons {m : Memory} {a b : Nat} {v : Byte} (hm : ∀ c ∈ m, b < c.1) (hab : a < b) :
    ∀ c ∈ (b, v) :: m, a < c.1 :=
  List.forall_mem_cons.mpr ⟨hab, fun c hc => hab.trans (hm c hc)⟩

/-- Settles O46: the first cells have the same address, since the lower of two would be read in one memory only; there
they hold the same byte, and the rest is the induction. -/
theorem canonicalMemoriesAreEqual : Obligations.CanonicalMemoriesAreEqual := by
  intro m
  induction m with
  | nil =>
    intro m' _ hwf' hread
    cases m' with
    | nil => rfl
    | cons d m' =>
      obtain ⟨-, hb, hw, -⟩ := Memory.wf_cons.mp hwf'
      exact absurd (hread d.1 (Nat.le_of_lt_succ hb)).symm (Memory.read_cons_ne_of_below hw (by simp))
  | cons c m ih =>
    obtain ⟨a, v⟩ := c
    intro m' hwf hwf' hread
    obtain ⟨hlow, ha, hv, hm⟩ := Memory.wf_cons.mp hwf
    have hread_a := hread a (Nat.le_of_lt_succ ha)
    cases m' with
    | nil => exact absurd hread_a (Memory.read_cons_ne_of_below hv (by simp))
    | cons d m' =>
      obtain ⟨b, w⟩ := d
      obtain ⟨hlow', hb, hw, hm'⟩ := Memory.wf_cons.mp hwf'
      rcases Nat.lt_trichotomy a b with hab | rfl | hba
      · exact absurd hread_a (Memory.read_cons_ne_of_below hv (Memory.below_cons hlow' hab))
      · obtain rfl : v = w := by simpa [Memory.read_cons_self] using hread_a
        refine congrArg _ (ih m' hm hm' fun k hk => ?_)
        by_cases hka : k = a
        · rw [hka, Memory.read_below hlow, Memory.read_below hlow']
        · simpa [Memory.read_cons_ne _ _ hka] using hread k hk
      · exact absurd (hread b (Nat.le_of_lt_succ hb)).symm
          (Memory.read_cons_ne_of_below hw (Memory.below_cons hlow hba))

/-! ## The launch -/

/-- With nothing loaded and the decided configuration memory lists nothing: every cell holds what an unlisted one
reads as. -/
theorem mem_launch_decided_nil (flReset : Byte) : (launch .decided [] flReset).mem = [] := by
  refine canonicalMemoriesAreEqual _ _ (wf_launch .decided [] flReset) Memory.wf_nil fun a ha => ?_
  change (launch .decided [] flReset).byteAt a = Memory.unlisted
  rw [byteAt_launch .decided [] flReset (Nat.lt_succ_of_le ha), List.getD_nil, Memory.unlisted]

/-- Settles O47, field by field; memory is IMAGE. -/
theorem launchFollowsResetTable : Obligations.LaunchFollowsResetTable := by
  refine ⟨fun c program flReset hlen => ?_, rfl, rfl, fun flReset => ?_⟩
  · have reset_x : ∀ r : Reg, r ≠ 7 → State.reset.x r = 0x00 := by decide
    refine ⟨fun r hr => ?_, ?_, rfl, rfl, rfl, rfl, fun k hk => ?_, fun k hk hk' => ?_,
      memRead_ok (a := 0) (by decide)⟩
    · rw [x_launch, if_neg hr, reset_x r hr]
    · rw [x_launch, if_pos rfl]
    · rw [byteAt_launch c program flReset (hk.trans_le hlen), List.getElem?_eq_getElem hk,
        List.getD_eq_getElem _ _ hk]
    · rw [byteAt_launch c program flReset (Nat.lt_succ_of_le hk'), List.getD_eq_default _ _ hk]
  · exact State.ext_fields rfl rfl rfl rfl (mem_launch_decided_nil flReset) rfl

end Sys2Proof.Machine
end

section
/-! PROOFS. Memory (20_memory.md): the bounds of the memory interface, which instructions write memory, and that a
fetch reads memory as it stands, so that a byte just pushed is the byte fetched. -/

namespace Sys2Proof.Machine

/-! ## The memory interface -/

/-- Settles O45: the two bounds checks, and read after write. -/
theorem memoryInterface : Obligations.MemoryInterface :=
  ⟨fun _ _ ha => memRead_ok (Nat.lt_succ_of_le ha), fun _ _ ha => memRead_error (Nat.not_lt_of_ge ha),
    fun s a v ha => ⟨s.setByte a v, memWrite_ok v (Nat.lt_succ_of_le ha), State.byteAt_setByte_self s a v,
      fun _ hb => State.byteAt_setByte_ne s v hb, rfl, rfl, rfl, rfl, rfl⟩,
    fun _ _ v ha => memWrite_error v (Nat.not_lt_of_ge ha)⟩

/-! ## The instructions that write memory -/

/-- Of the instructions only PUSH and CALL write memory, and only the cell of the push (20_memory.md R59). -/
theorem Effect.byte_written {s t : State} {i : Instr} {a : Nat} (h : Effect s i t) (ha : t.byteAt a ≠ s.byteAt a) :
    (i.op = .push ∨ i.op = .call) ∧ a = pushAddr s := by
  have at_pushAddr {v : Byte} (hv : (s.setByte (pushAddr s) v).byteAt a ≠ s.byteAt a) : a = pushAddr s :=
    not_imp_comm.mp (State.byteAt_setByte_ne s v) hv
  cases h with
  | push _ => exact ⟨.inl rfl, at_pushAddr ha⟩
  | call _ _ => exact ⟨.inr rfl, at_pushAddr ha⟩
  | branch taken _ _ _ => cases taken <;> exact absurd rfl ha
  | hlt | write _ _ _ | cmp _ _ | prn _ | pop _ | ret | divideByZero _ _ _ | callOutOfBounds _ _ => exact absurd rfl ha

/-- Settles O39: a fault writes nothing, and of the instructions only PUSH and CALL do. -/
theorem memoryWrittenOnlyByPushAndCall : Obligations.MemoryWrittenOnlyByPushAndCall := by
  intro s t a h ha
  obtain ⟨-, ⟨i, hf, heff⟩ | ⟨f, -, rfl⟩⟩ := stepWith_effect h
  · obtain ⟨-, hop, -⟩ := fetch_ok hf
    obtain ⟨hwriter, haddr⟩ := heff.byte_written ha
    exact ⟨hop ▸ hwriter.imp (congrArg some) (congrArg some), haddr⟩
  · exact absurd rfl ha

/-! ## The bytes a fetch reads -/

theorem bytesFrom_eq_nil {p : Nat} (read : Nat → Byte) (h : 256 ≤ p) : bytesFrom p read = [] := by
  rw [bytesFrom, Nat.sub_eq_zero_of_le h]
  rfl

theorem bytesFrom_cons {p : Nat} (read : Nat → Byte) (h : p < 256) :
    bytesFrom p read = read p :: bytesFrom (p + 1) read := by
  rw [bytesFrom, show 256 - p = 256 - (p + 1) + 1 by omega, List.range'_succ]
  rfl

@[simp] theorem length_bytesFrom (p : Nat) (read : Nat → Byte) : (bytesFrom p read).length = 256 - p := by
  simp [bytesFrom]

theorem getD_bytesFrom {p k : Nat} (read : Nat → Byte) (h : p + k < 256) :
    (bytesFrom p read).getD k 0 = read (p + k) := by
  rw [List.getD_eq_getElem _ _ (by rw [length_bytesFrom]; omega)]
  simp [bytesFrom]

/-- The fault a step raises where the bytes at pc do not decode (60_exceptions.md R201, R204). -/
def causeOf : DecodeError → FaultCause
  | .truncated => .outOfBounds
  | .illegalOpcode _ => .illegalInstruction
  | .illegalRegister => .illegalInstruction

theorem actOn_ok {c : Config} {bytes rest : List Byte} {i : Instr} (h : decode c bytes = .ok (i, rest)) (s : State) :
    actOn c bytes s = exec i s := by
  simp [actOn, h]

theorem actOn_error {c : Config} {bytes : List Byte} {e : DecodeError} (h : decode c bytes = .error e) (s : State) :
    actOn c bytes s = raise (causeOf e) s := by
  cases e <;> simp [actOn, h, causeOf]

theorem decode_illegalOpcode {c : Config} {b : Byte} (h : decodeOpcode c b = none) (rest : List Byte) :
    decode c (b :: rest) = .error (.illegalOpcode b) := by
  simp [decode, h]

theorem decode_truncated {c : Config} {b : Byte} {o : Op} (h : decodeOpcode c b = some o) {rest : List Byte}
    (hlen : rest.length < nops b) : decode c (b :: rest) = .error .truncated := by
  simp [decode, h, hlen]

/-- Where all operand bytes are there, only the register bytes decide (30_encoding.md R83). -/
theorem decode_complete {c : Config} {b : Byte} {o : Op} (h : decodeOpcode c b = some o) {rest : List Byte}
    (hlen : nops b ≤ rest.length) : decode c (b :: rest) =
      if (o.build (rest.getD 0 0) (rest.getD 1 0)).wf
      then .ok (o.build (rest.getD 0 0) (rest.getD 1 0), rest.drop (nops b)) else .error .illegalRegister := by
  simp only [decode, h, if_neg (Nat.not_lt_of_le hlen)]

/-! ## The fetch, one equation per case -/

section Fetched

variable {c : Config} {s : State} {o : Op}

theorem fetch_offEnd (h : 256 ≤ s.pc.toNat) : fetch c s = .error .outOfBounds := by
  simp only [fetch, memRead_error (Nat.not_lt_of_ge h)]

theorem fetch_illegalOpcode (hpc : s.pc.toNat < 256) (ho : decodeOpcode c s.opcode = none) :
    fetch c s = .error .illegalInstruction := by
  have hopcode : memRead s s.pc.toNat = .ok s.opcode := memRead_ok hpc
  simp only [fetch, hopcode, ho]

theorem nops_of_decodeOpcode (hc : c.Valid) {b : Byte} (ho : decodeOpcode c b = some o) :
    nops b = o.format.operands := by
  rw [← opcodes_of_decodeOpcode ho, hc.nops]

theorem fetchOperand_outOfBounds {n k : Nat} (hk : k ≤ n) (h : 256 ≤ s.pc.toNat + k) :
    fetchOperand s n k = .error .outOfBounds := by
  rw [fetchOperand, if_pos hk, memRead_error (Nat.not_lt_of_ge h)]

/-- An operand byte past address 255: the first one, or the second of two. -/
theorem fetch_unfit (hc : c.Valid) (hpc : s.pc.toNat < 256) (ho : decodeOpcode c s.opcode = some o)
    (hunfit : 256 ≤ s.pc.toNat + o.format.operands) : fetch c s = .error .outOfBounds := by
  have hopcode : memRead s s.pc.toNat = .ok s.opcode := memRead_ok hpc
  simp only [fetch, hopcode, ho, nops_of_decodeOpcode hc ho]
  have := operands_le_two o.format
  by_cases hfirst : 256 ≤ s.pc.toNat + 1
  · rw [fetchOperand_outOfBounds (by omega) hfirst]
  · rw [fetchOperand_eq fun _ => Nat.lt_of_not_le hfirst, fetchOperand_outOfBounds (k := 2) (by omega) (by omega)]

/-- Where all bytes of the instruction lie in memory, only its register bytes decide (30_encoding.md R83). -/
theorem fetch_complete (hc : c.Valid) (ho : decodeOpcode c s.opcode = some o)
    (hfit : s.pc.toNat + o.format.operands < 256) : fetch c s =
      if (o.build s.opa s.opb).wf then .ok (o.build s.opa s.opb) else .error .illegalInstruction := by
  have hopcode : memRead s s.pc.toNat = .ok s.opcode := memRead_ok ((Nat.le_add_right _ _).trans_lt hfit)
  have hoperand (k : Nat) : fetchOperand s o.format.operands k =
      .ok (if k ≤ o.format.operands then s.byteAt (s.pc.toNat + k) else 0) :=
    fetchOperand_eq fun hk => (Nat.add_le_add_left hk _).trans_lt hfit
  have hbuild : o.build (if 1 ≤ o.format.operands then s.byteAt (s.pc.toNat + 1) else 0)
      (if 2 ≤ o.format.operands then s.byteAt (s.pc.toNat + 2) else 0) = o.build s.opa s.opb :=
    build_congr o (if_pos ·) (if_pos ·)
  simp only [fetch, hopcode, ho, nops_of_decodeOpcode hc ho, hoperand, hbuild]

/-! ## The step is the decoder on the bytes from pc -/

theorem codeAt_offEnd (h : 256 ≤ s.pc.toNat) : s.codeAt = [] := bytesFrom_eq_nil s.byteAt h

theorem codeAt_cons (h : s.pc.toNat < 256) : s.codeAt = s.opcode :: bytesFrom (s.pc.toNat + 1) s.byteAt :=
  bytesFrom_cons s.byteAt h

/-- Building on the bytes that a decoder finds after the opcode is building on the operand bytes of the state. -/
theorem build_bytesFrom (hfit : s.pc.toNat + o.format.operands < 256) :
    o.build ((bytesFrom (s.pc.toNat + 1) s.byteAt).getD 0 0) ((bytesFrom (s.pc.toNat + 1) s.byteAt).getD 1 0) =
      o.build s.opa s.opb :=
  build_congr o (fun _ => getD_bytesFrom s.byteAt (by omega)) (fun _ => getD_bytesFrom s.byteAt (by omega))

/-- A step of a Running state acts on the bytes from pc to 255, as the memory holds them now
(40_fetch_decode_execute_loop.md R116 to R120). -/
theorem stepWith_eq_actOn (hc : c.Valid) (hrun : s.run = .running) : stepWith c s = actOn c s.codeAt s := by
  rw [stepWith_running c hrun]
  rcases Nat.lt_or_ge s.pc.toNat 256 with hpc | hpc
  · rw [codeAt_cons hpc]
    have hlen : (bytesFrom (s.pc.toNat + 1) s.byteAt).length = 256 - (s.pc.toNat + 1) := length_bytesFrom _ _
    cases ho : decodeOpcode c s.opcode with
    | none => rw [fetch_illegalOpcode hpc ho, actOn_error (decode_illegalOpcode ho _)]; rfl
    | some o =>
      have hn := nops_of_decodeOpcode hc ho
      rcases Nat.lt_or_ge (s.pc.toNat + o.format.operands) 256 with hfit | hunfit
      · have hdecode := decode_complete ho (rest := bytesFrom (s.pc.toNat + 1) s.byteAt) (by omega)
        rw [build_bytesFrom hfit] at hdecode
        rw [fetch_complete hc ho hfit]
        by_cases hw : (o.build s.opa s.opb).wf = true
        · rw [if_pos hw] at hdecode ⊢
          rw [actOn_ok hdecode]
        · rw [if_neg hw] at hdecode ⊢
          rw [actOn_error hdecode]; rfl
      · rw [fetch_unfit hc hpc ho hunfit, actOn_error (decode_truncated ho (by omega))]; rfl
  · rw [fetch_offEnd hpc, codeAt_offEnd hpc, actOn_error (e := .truncated) rfl]; rfl

/-! ## A pushed byte is the byte fetched -/

theorem step_hlt (hrun : s.run = .running) (hpc : s.pc.toNat < 256) (hop : s.opAt = some .hlt) :
    step s = .next ((s.setRun .halted).advance 1) := by
  have hf : fetch .decided s = .ok .hlt := fetchWith_eq_ok Config.decided_valid hop hpc rfl
  rw [step, stepWith_running .decided hrun, hf, ← exec_hlt]

theorem step_illegalOpcode (hrun : s.run = .running) (hpc : s.pc.toNat < 256) (hop : s.opAt = none) :
    step s = .next (s.setRun (.faulted .illegalInstruction)) := by
  rw [step, stepWith_running .decided hrun, fetch_illegalOpcode hpc hop]
  rfl

theorem State.pc_advance_toNat {n : Nat} (h : s.pc.toNat + n < 512) : (s.advance n).pc.toNat = s.pc.toNat + n := by
  rw [State.pc_advance, BitVec.toNat_add, BitVec.toNat_ofNat]
  omega

theorem faultedFrom_setRun (f : FaultCause) (s : State) : FaultedFrom f s (s.setRun (.faulted f)) :=
  ⟨rfl, rfl, rfl, rfl, rfl, rfl⟩

/-- After a byte is stored at the push address the step acts on memory with that byte in it. -/
theorem step_of_pushed {t : State} {v : Byte} (hrun : t.run = .running)
    (hbyte : ∀ a, t.byteAt a = if a = pushAddr s then v else s.byteAt a) :
    step t = actOn .decided (bytesFrom t.pc.toNat fun a => if a = pushAddr s then v else s.byteAt a) t := by
  rw [← funext hbyte]
  exact stepWith_eq_actOn Config.decided_valid hrun

/-- The opcode at pc is the byte stored, where it is stored at pc. -/
theorem opcode_of_pushed {t : State} {v : Byte}
    (hbyte : ∀ a, t.byteAt a = if a = pushAddr s then v else s.byteAt a) (haddr : pushAddr s = t.pc.toNat) :
    t.opcode = v :=
  (hbyte t.pc.toNat).trans (if_pos haddr.symm)

/-- The byte `PUSH r` stores and the address `CALL r` goes to: the register after the decrement of SP (42_stack.md
R154, 44_control_transfer.md R183). -/
theorem x_decremented (s : State) (r : Reg) :
    (s.setReg 7 (s.sp - 1)).x r = if r = 7 then s.x 7 - 1 else s.x r := State.x_setReg s 7 r _

theorem push_leaves (r : Reg) (s : State) : ∃ t, exec (.push (regByte r)) s = .next t ∧ t.run = s.run ∧
    t.pc = s.pc + 2 ∧
    ∀ a, t.byteAt a = if a = pushAddr s then (if r = 7 then s.x 7 - 1 else s.x r) else s.byteAt a := by
  rw [exec_push, x_decremented]
  exact ⟨_, rfl, rfl, rfl, fun a => State.byteAt_setByte _ _ a _⟩

theorem call_leaves (r : Reg) (hfit : s.pc.toNat + 2 ≤ 255) : ∃ t, exec (.call (regByte r)) s = .next t ∧
    t.run = s.run ∧ t.pc.toNat = (if r = 7 then s.x 7 - 1 else s.x r).toNat ∧
    ∀ a, t.byteAt a = if a = pushAddr s then BitVec.ofNat 8 (s.pc.toNat + 2) else s.byteAt a := by
  rw [exec_call s r hfit, x_decremented]
  exact ⟨_, rfl, rfl, byteToPc_toNat _, fun a => State.byteAt_setByte _ _ a _⟩

end Fetched

/-- Settles O44: the step after a push is the decoder on memory as the push left it. -/
theorem pushedByteIsFetched : Obligations.PushedByteIsFetched := by
  refine ⟨fun r s hs => ?_, fun r s hs hfit => ?_⟩
  · obtain ⟨t, hexec, hrun, hpc, hbyte⟩ := push_leaves r s
    rw [hs] at hrun
    refine ⟨t, hexec, hpc, step_of_pushed hrun hbyte, fun haddr => ?_⟩
    have hlt : t.pc.toNat < 256 := haddr ▸ pushAddr_lt s
    have hopcode := opcode_of_pushed hbyte haddr
    refine ⟨hopcode, fun hpushed => ?_, fun hpushed => ?_⟩
    · have hop : t.opAt = some .hlt := by
        rw [State.opAt, hopcode, hpushed]
        exact decodeOpcode_opcodeOf .hlt
      exact ⟨_, step_hlt hrun hlt hop, rfl, State.pc_advance_toNat (by rw [State.pc_setRun]; omega)⟩
    · have hop : t.opAt = none := by rw [State.opAt, hopcode, hpushed]
      exact ⟨_, step_illegalOpcode hrun hlt hop, faultedFrom_setRun .illegalInstruction t⟩
  · obtain ⟨t, hexec, hrun, hpc, hbyte⟩ := call_leaves r hfit
    exact ⟨t, hexec, hpc, step_of_pushed (hrun.trans hs) hbyte, opcode_of_pushed hbyte⟩

end Sys2Proof.Machine
end

section
/-! PROOFS. The encoding (30_encoding.md R80 to R95): the configured opcode map, the round trips of the decoder and the
encoder, and the operand bytes that name no register. -/

namespace Sys2Proof

variable {c : Config}

/-! ## Decode and encode agree -/

/-- Everything a successful decoding says: the opcode is one of the map, its operand bytes are there, the instruction
built on them is well formed, and the rest is what follows them. -/
theorem decode_ok {bytes rest : List Byte} {i : Instr} (h : decode c bytes = .ok (i, rest)) :
    ∃ b tail o, bytes = b :: tail ∧ decodeOpcode c b = some o ∧ nops b ≤ tail.length ∧
      i = o.build (tail.getD 0 0) (tail.getD 1 0) ∧ i.WellFormed ∧ rest = tail.drop (nops b) := by
  cases bytes with
  | nil => cases h
  | cons b tail =>
    cases ho : decodeOpcode c b with
    | none => rw [Machine.decode_illegalOpcode ho] at h; cases h
    | some o =>
      rcases Nat.lt_or_ge tail.length (nops b) with hshort | hlen
      · rw [Machine.decode_truncated ho hshort] at h; cases h
      · rw [Machine.decode_complete ho hlen] at h
        split at h
        · cases h; exact ⟨b, tail, o, rfl, ho, hlen, rfl, ‹_›, rfl⟩
        · cases h

/-- Settles O2: the lookup finds the instruction's own row, and building on its own operand bytes gives it back. -/
theorem decodeOfEncode : Obligations.DecodeOfEncode := by
  intro c i rest hc hw
  have hn : nops (c.opcodes i.op) = i.operandBytes.length := by rw [hc.nops, length_operandBytes]
  have hlen : nops (c.opcodes i.op) ≤ (i.operandBytes ++ rest).length := by simp [hn]
  rw [encode, List.cons_append, Machine.decode_complete (decodeOpcode_opcodes hc i.op) hlen, build_operandBytes,
    if_pos hw, hn, List.drop_left]

/-- Settles O3: the bytes read are the opcode of the row found and the operand bytes the instruction is built on. -/
theorem encodeOfDecode : Obligations.EncodeOfDecode := by
  intro c bytes rest i hc h
  obtain ⟨b, tail, o, rfl, ho, hlen, rfl, hw, rfl⟩ := decode_ok h
  rw [Machine.nops_of_decodeOpcode hc ho] at hlen ⊢
  refine ⟨hw, ?_⟩
  rw [encode, op_build, opcodes_of_decodeOpcode ho, operandBytes_build o tail hlen, List.cons_append,
    List.take_append_drop]

/-! ## Register bytes -/

theorem isRegByte_eq_false_iff {b : Byte} : isRegByte b = false ↔ 7 < b.toNat :=
  decide_eq_false_iff_not.trans Nat.not_lt

/-- The register positions of each format (30_encoding.md R80, 40_fetch_decode_execute_loop.md R120): the first operand
where there is one, the second in F2R. -/
theorem build_illFormed_iff {o : Op} {opa opb : Byte} : (o.build opa opb).wf = false ↔
    (o.format ≠ .f0 ∧ isRegByte opa = false) ∨ (o.format = .f2r ∧ isRegByte opb = false) := by
  rw [Instr.wf, Instr.regBytes, op_build]
  cases o with
  | hlt | ret => simp [Op.format]
  | ldi | prn | push | pop | call | jmp | jeq | jne => simp [Op.format, Op.build, Instr.operandBytes]
  | add | mul | sub | div | cmp =>
    simp [Op.format, Op.build, Instr.operandBytes, -Bool.and_eq_false_imp, Bool.and_eq_false_iff]

/-- Settles O6: two operand bytes are there, so only the register bytes decide. -/
theorem registerBytesAboveSevenDoNotDecode : Obligations.RegisterBytesAboveSevenDoNotDecode := by
  intro c o opa opb rest hc hbad
  have hlen : nops (c.opcodes o) ≤ (opa :: opb :: rest).length := by
    rw [hc.nops]
    exact (operands_le_two o.format).trans (by simp)
  have hw : (o.build opa opb).wf = false := by simpa only [build_illFormed_iff, isRegByte_eq_false_iff] using hbad
  rw [Machine.decode_complete (decodeOpcode_opcodes hc o) hlen]
  exact if_neg (ne_true_of_eq_false hw)

/-- An instruction with an operand byte that names no register is illegal to `exec` (30_encoding.md R83). -/
theorem exec_build_illFormed {o : Op} {opa opb : Byte} (h : (o.build opa opb).wf = false) (s : Machine.State) :
    Machine.exec (o.build opa opb) s = Machine.raise .illegalInstruction s := by
  rcases build_illFormed_iff.mp h with ⟨hf, hopa⟩ | ⟨hf, hopb⟩
  · cases o with
    | hlt | ret => exact absurd rfl hf
    | ldi | prn | push | pop | call | jmp | jeq | jne => exact Machine.withReg_illegal hopa s _
    | add | mul | sub | div | cmp => exact Machine.withRegs_illegal (.inl hopa) s _
  · cases o with
    | add | mul | sub | div | cmp => exact Machine.withRegs_illegal (.inr hopb) s _
    | _ => cases hf

/-- Settles O17: every term is its operation built on its own operand bytes. -/
theorem illFormedInstructionIsIllegal : Obligations.IllFormedInstructionIsIllegal := by
  intro i s h
  rw [← build_operandBytes i []] at h ⊢
  exact ⟨_, exec_build_illFormed h s, Machine.faultedFrom_setRun .illegalInstruction s⟩

/-! ## The opcode map -/

/-- Settles O5: the check, spelled out condition by condition. -/
theorem opcodeMapMeetsItsConstraint : Obligations.OpcodeMapMeetsItsConstraint := by
  refine ⟨Config.decided_valid, fun c => ?_⟩
  have hnodup : (Op.all.map c.opcodes).Nodup ↔ ∀ o o', c.opcodes o = c.opcodes o' → o = o' := by
    simp [List.nodup_map_iff_inj_on (show Op.all.Nodup by decide)]
  have halu (o : Op) : aluBit (c.opcodes o) = decide (o ∈ Op.alu) ↔
      (aluBit (c.opcodes o) = true ↔ o ∈ [Op.add, .sub, .mul, .div, .cmp]) := by
    rw [Bool.eq_iff_iff, decide_eq_true_iff, Op.alu]
  simp only [Config.Valid, Config.valid, Bool.and_eq_true, List.all_eq_true, beq_iff_eq, bne_iff_ne, decide_eq_true_iff,
    Op.mem_all, forall_const, hnodup, halu, forall_and, and_assoc]

/-- The lookup answers exactly the row whose opcode is the byte, in all eight bits (30_encoding.md R88). -/
theorem decodeOpcode_eq_some_iff (hc : c.Valid) {b : Byte} {o : Op} : decodeOpcode c b = some o ↔ c.opcodes o = b :=
  ⟨opcodes_of_decodeOpcode, fun h => h ▸ decodeOpcode_opcodes hc o⟩

/-- Settles O4. -/
theorem opcodeLookupIsExact : Obligations.OpcodeLookupIsExact := by
  refine ⟨Config.decided_valid, fun c hc => ⟨fun _ _ => decodeOpcode_eq_some_iff hc, fun b => ?_⟩⟩
  simp only [Option.eq_none_iff_forall_ne_some, ne_eq, decodeOpcode_eq_some_iff hc]

/-- Settles O1, word by word. -/
theorem writtenOutWordsDecode : Obligations.WrittenOutWordsDecode := by
  unfold Obligations.WrittenOutWordsDecode
  decide

end Sys2Proof
end

section
/-! PROOFS. The image text (30_encoding.md R100 to R103): what a token and a line stand for, how a text is cut into lines,
and which texts start a run. -/

namespace Sys2Proof.Machine

/-! ## A token of base-2 digits -/

/-- One digit after a number already read, most significant digit first (30_encoding.md R101). -/
def appendBit (n : Nat) (c : Char) : Nat := 2 * n + if c = '1' then 1 else 0

theorem parseBinary_of_digits {cs : List Char} (h : ∀ c ∈ cs, c = '0' ∨ c = '1') (acc : Nat) :
    parseBinary cs acc = some (cs.foldl appendBit acc) := by
  induction cs generalizing acc with
  | nil => rfl
  | cons c cs ih =>
    obtain ⟨hc, hcs⟩ := List.forall_mem_cons.mp h
    rcases hc with rfl | rfl <;> simp [parseBinary, appendBit, ih hcs]

theorem parseBinary_of_nonDigit {cs : List Char} (h : ∃ c ∈ cs, c ≠ '0' ∧ c ≠ '1') (acc : Nat) :
    parseBinary cs acc = none := by
  induction cs generalizing acc with
  | nil => exact absurd h (by simp)
  | cons c cs ih =>
    rcases List.exists_mem_cons_iff .. |>.mp h with ⟨h0, h1⟩ | hcs
    · rw [parseBinary, if_neg h0, if_neg h1]
    · simp only [parseBinary, ih hcs, ite_self]

/-! ## One line -/

/-- What is left of a line without its comment and the white space at both ends (30_encoding.md R101). -/
def tokenOf (line : List Char) : List Char := trimChars (line.takeWhile (· ≠ '#'))

section Line

variable {line : List Char}

theorem parseLine_blank (h : tokenOf line = []) : parseLine line = .ok none := by
  rw [tokenOf] at h
  simp only [parseLine, h]

theorem parseLine_nonBinary (h : parseBinary (tokenOf line) 0 = none) : parseLine line = .error .malformedProgram := by
  rw [tokenOf] at h
  unfold parseLine
  split
  · next hnil => rw [hnil] at h; cases h
  · simp only [h]

theorem parseLine_binary (hne : tokenOf line ≠ []) {v : Nat} (h : parseBinary (tokenOf line) 0 = some v) :
    parseLine line = if v < 256 then .ok (some (BitVec.ofNat 8 v)) else .error .malformedProgram := by
  rw [tokenOf] at h hne
  unfold parseLine
  split
  · next hnil => exact absurd hnil hne
  · simp only [h]

end Line

/-- Settles O54, case by case of the token. -/
theorem imageLineMeaning : Obligations.ImageLineMeaning := fun _ =>
  ⟨parseLine_blank, fun h => parseLine_nonBinary (parseBinary_of_nonDigit h 0),
    fun hne h hlarge => (parseLine_binary hne (parseBinary_of_digits h 0)).trans (if_neg (Nat.not_lt.mpr hlarge)),
    fun hne h hsmall => (parseLine_binary hne (parseBinary_of_digits h 0)).trans (if_pos (Nat.lt_succ_of_le hsmall))⟩

/-! ## The lines of a text -/

theorem splitLines_ne_nil (text : List Char) : splitLines text ≠ [] := by
  cases text with
  | nil => simp [splitLines]
  | cons c cs =>
    unfold splitLines
    repeat' split
    all_goals simp

theorem splitLines_lineFeed (cs : List Char) : splitLines ('\n' :: cs) = [] :: splitLines cs := rfl

/-- A character other than the line feed is put before the first line of the rest. -/
theorem splitLines_cons {c : Char} (h : c ≠ '\n') (cs : List Char) :
    ∃ l ls, splitLines cs = l :: ls ∧ splitLines (c :: cs) = (c :: l) :: ls := by
  cases hs : splitLines cs with
  | nil => exact absurd hs (splitLines_ne_nil cs)
  | cons l ls => exact ⟨l, ls, rfl, by simp only [splitLines, if_neg h, hs]⟩

/-- Lines are cut at line feeds and nowhere else: `splitLines` is the library's split. -/
theorem splitLines_eq_splitOn (text : List Char) : splitLines text = text.splitOn '\n' := by
  induction text with
  | nil => rfl
  | cons c cs ih =>
    rw [List.splitOn_cons_eq_if_modifyHead, ← ih]
    by_cases h : c = '\n'
    · simp [h, splitLines_lineFeed]
    · obtain ⟨l, ls, hs, hcons⟩ := splitLines_cons h cs
      simp [h, hs, hcons]

theorem lineFeed_notMem_of_mem_splitLines {text line : List Char} (h : line ∈ splitLines text) : '\n' ∉ line := by
  induction text generalizing line with
  | nil =>
    obtain rfl : line = [] := List.mem_singleton.mp h
    exact List.not_mem_nil
  | cons c cs ih =>
    by_cases hc : c = '\n'
    · rw [hc, splitLines_lineFeed] at h
      rcases List.mem_cons.mp h with rfl | hline
      · exact List.not_mem_nil
      · exact ih hline
    · obtain ⟨l, ls, hs, hcons⟩ := splitLines_cons hc cs
      rw [hs] at ih
      rw [hcons] at h
      rcases List.mem_cons.mp h with rfl | hline
      · exact List.not_mem_cons_of_ne_of_not_mem (Ne.symm hc) (ih List.mem_cons_self)
      · exact ih (List.mem_cons_of_mem l hline)

/-! ## The values of the lines -/

section Lines

variable {line : List Char} {lines : List (List Char)}

theorem parseLines_cons_ok {v : Option Byte} (h : parseLine line = .ok v) :
    parseLines (line :: lines) = (parseLines lines).map (v.toList ++ ·) := by
  rw [parseLines, h]
  cases v <;> cases parseLines lines <;> rfl

theorem parseLines_cons_error {e : LoadError} (h : parseLine line = .error e) :
    parseLines (line :: lines) = .error e := by
  simp only [parseLines, h]

theorem parseLines_of_values {values : List (Option Byte)} (h : lines.map parseLine = values.map .ok) :
    parseLines lines = .ok (values.filterMap id) := by
  induction lines generalizing values with
  | nil =>
    obtain rfl : values = [] := by simpa using h.symm
    rfl
  | cons line lines ih =>
    cases values with
    | nil => cases h
    | cons v vs =>
      obtain ⟨hv, hvs⟩ := List.cons.inj h
      rw [parseLines_cons_ok hv, ih hvs]
      cases v <;> rfl

theorem parseLines_of_malformed (h : ∃ line ∈ lines, parseLine line = .error .malformedProgram) :
    parseLines lines = .error .malformedProgram := by
  induction lines with
  | nil => exact absurd h (by simp)
  | cons line lines ih =>
    rcases List.exists_mem_cons_iff .. |>.mp h with hline | hlines
    · exact parseLines_cons_error hline
    · cases hline : parseLine line with
      | ok v => rw [parseLines_cons_ok hline, ih hlines]; rfl
      | error e => cases e; exact parseLines_cons_error hline

end Lines

/-! ## The launch of a text -/

section Text

variable {text : List Char}

theorem loadText_of_malformed {e : LoadError} (h : parseLines (splitLines text) = .error e) (c : Config)
    (flReset : Byte) : loadText c text flReset = .error e := by
  simp only [loadText, parseImage, h]

/-- A text whose lines all have a meaning starts a run exactly when its values fit in memory (30_encoding.md R102). -/
theorem loadText_of_program {program : List Byte} (h : parseLines (splitLines text) = .ok program) (c : Config)
    (flReset : Byte) : loadText c text flReset =
      if program.length ≤ Config.memSize then .ok (launch c program flReset) else .error .malformedProgram := by
  simp only [loadText, parseImage, h]
  by_cases hfit : program.length ≤ Config.memSize
  · simp only [if_pos hfit]
  · simp only [if_neg hfit]

end Text

/-- Settles O55: the text is cut as the library cuts it, and the values of all its lines decide what is launched. -/
theorem loadStartsOnlyWholePrograms : Obligations.LoadStartsOnlyWholePrograms := by
  intro c text flReset
  refine ⟨?_, fun _ => lineFeed_notMem_of_mem_splitLines,
    fun h => loadText_of_malformed (parseLines_of_malformed h) c flReset, fun values h => ?_⟩
  · rw [splitLines_eq_splitOn, List.intercalate_splitOn]
  · rw [loadText_of_program (parseLines_of_values h) c flReset]
    exact ⟨fun hfit => if_pos hfit, fun hlarge => if_neg (Nat.not_le.mpr hlarge)⟩

/-- Settles O53, by running the loader on the text. -/
theorem workedImageLoads : Obligations.WorkedImageLoads := by
  unfold Obligations.WorkedImageLoads
  decide

end Sys2Proof.Machine
end

section
/-! PROOFS. The fetch-decode-execute loop (40_fetch_decode_execute_loop.md R116 to R126): the step and the decoder, what
the ALU writes, where pc goes, and the three ways of a run. -/

namespace Sys2Proof.Machine

/-! ## The step and the decoder -/

/-- Settles O8: a step acts on the bytes from pc, and `actOn` is the statement's case distinction. -/
theorem stepRefinesTheDecoder : Obligations.StepRefinesTheDecoder :=
  ⟨fun _ => rfl, fun _ _ hc hrun => stepWith_eq_actOn hc hrun⟩

/-- Settles O7: the case of O8 in which the bytes decode. -/
theorem stepRunsDecodedInstruction : Obligations.StepRunsDecodedInstruction := fun s _ _ hrun hdecode =>
  (stepWith_eq_actOn Config.decided_valid hrun).trans (actOn_ok hdecode s)

/-! ## The ALU -/

/-- The ALU's output is written to the destination register, or no register is written. -/
theorem aluFinish_writes {a : Reg} {s t : State} {o : AluOut} (h : aluFinish a s o = .next t) :
    (∃ v, t = (s.setReg a v).advance 3) ∨ t.regs = s.regs := by
  cases o with
  | result v => exact .inl ⟨v, (Host.Outcome.next.inj h).symm⟩
  | flags _ | divideByZero | unsupported => cases h; exact .inr rfl

/-- An ALU instruction writes the register of its first operand alone, or no register, whatever the select. -/
theorem aluInstr_writes {sel : BitVec 4} {opa opb : Byte} {s t : State} (h : aluInstr sel opa opb s = .next t) :
    (∃ a v, opa = regByte a ∧ t = (s.setReg a v).advance 3) ∨ t.regs = s.regs := by
  rw [aluInstr, withRegs] at h
  rcases withReg_cases opa s _ with ⟨a, ha, hopa⟩ | ⟨-, hopa⟩ <;> rw [hopa] at h
  · rcases withReg_cases opb s _ with ⟨b, -, hopb⟩ | ⟨-, hopb⟩ <;> rw [hopb] at h
    · exact (aluFinish_writes h).imp_left fun ⟨v, ht⟩ => ⟨a, v, ha, ht⟩
    · cases h; exact .inr rfl
  · cases h; exact .inr rfl

/-- Settles O15: a register write leaves FL alone, and everything else leaves the registers alone. -/
theorem aluWritesRegisterOrFlags : Obligations.AluWritesRegisterOrFlags := by
  refine ⟨by decide, fun sel opa opb s t h => ?_⟩
  rcases aluInstr_writes h with ⟨a, v, rfl, rfl⟩ | hregs
  · exact .inl ⟨rfl, fun r hr => State.x_setReg_ne s v fun hra => hr (congrArg regByte hra.symm)⟩
  · exact .inr fun r => congrArg (·[r]) hregs

/-! ## The program counter -/

section ProgramCounter

variable {s t : State} {i : Instr}

/-- The operations after which pc goes to the next instruction in memory. -/
theorem Effect.pc_of_sequential (h : Effect s i t) (hok : ∀ f, t.run ≠ .faulted f)
    (hfit : s.pc.toNat + i.op.format.operands < 256)
    (hop : i.op ∈ [Op.hlt, Op.ldi, Op.prn, Op.push, Op.pop, Op.add, Op.sub, Op.mul, Op.div, Op.cmp]) :
    t.pc.toNat = s.pc.toNat + 1 + i.op.format.operands := by
  have hnowrap : s.pc.toNat + (i.op.format.operands + 1) < 512 := by omega
  cases h with
  | hlt | cmp _ _ | prn _ | push _ | pop _ =>
    exact State.pc_advance_toNat hnowrap
  | write v hwrite _ =>
    have operands_of_write : ∀ o ∈ [Op.ldi, .add, .sub, .mul, .div], o.format.operands = 2 := by decide
    rw [operands_of_write i.op hwrite] at hnowrap ⊢
    exact State.pc_advance_toNat hnowrap
  | branch _ hbranch _ _ =>
    have branches_not_sequential : ∀ o ∈ [Op.jmp, .jeq, .jne],
        o ∉ [Op.hlt, .ldi, .prn, .push, .pop, .add, .sub, .mul, .div, .cmp] := by decide
    exact absurd hop (branches_not_sequential i.op hbranch)
  | call _ _ | ret => simp [Instr.op] at hop
  | divideByZero _ _ _ | callOutOfBounds _ _ => exact absurd rfl (hok _)

theorem eq_ret_of_op (h : i.op = .ret) : i = .ret := by
  cases i with
  | ret => rfl
  | _ => cases h

/-- RET goes to the popped byte (44_control_transfer.md R184). -/
theorem Effect.pc_of_ret (h : Effect s .ret t) : t.pc.toNat = (s.byteAt (s.x 7).toNat).toNat := by
  cases h with
  | ret => exact byteToPc_toNat _
  | write _ hop _ | branch _ hop _ _ => simp [Instr.op] at hop

theorem pc_branch (taken : Bool) (s : State) (r : Reg) (hfit : s.pc.toNat + 1 < 256) :
    (if taken then s.jump (s.x r) else s.advance 2).pc.toNat =
      if taken then (s.x r).toNat else s.pc.toNat + 2 := by
  cases taken with
  | true => exact byteToPc_toNat _
  | false => exact State.pc_advance_toNat (by omega)

/-- The targets of the jumps (44_control_transfer.md R181 to R183, R185, R186). -/
theorem Effect.pc_of_jump (h : Effect s i t) (hok : ∀ f, t.run ≠ .faulted f)
    (hfit : s.pc.toNat + i.op.format.operands < 256) (hop : i.op ∈ [Op.jmp, Op.call, Op.jeq, Op.jne]) :
    ∃ r, i.operandBytes.head? = some (regByte r) ∧
      (i.op = .jmp → t.pc.toNat = (s.x r).toNat) ∧
      (i.op = .call → t.pc.toNat = (t.x r).toNat) ∧
      (i.op = .jeq → t.pc.toNat = if s.fl.getLsbD 0 then (s.x r).toNat else s.pc.toNat + 2) ∧
      (i.op = .jne → t.pc.toNat = if s.fl.getLsbD 0 then s.pc.toNat + 2 else (s.x r).toNat) := by
  cases h with
  | @branch _ r taken hbranch hr htaken =>
    have operands_of_branch : ∀ o ∈ [Op.jmp, .jeq, .jne], o.format.operands = 1 := by decide
    rw [operands_of_branch i.op hbranch] at hfit
    obtain ⟨hjmp, hjeq, hjne⟩ := htaken
    simp only [pc_branch taken s r hfit]
    refine ⟨r, hr, fun h => ?_, fun h => ?_, fun h => ?_, fun h => ?_⟩
    · rw [hjmp h]; rfl
    · simp [h] at hbranch
    · rw [hjeq h]; rfl
    · rw [hjne h, flagE]
      cases s.fl.getLsbD 0 <;> rfl
  | call r _ => exact ⟨r, rfl, nofun, fun _ => byteToPc_toNat _, nofun, nofun⟩
  | callOutOfBounds _ _ => exact absurd rfl (hok _)
  | write _ hwrite _ =>
    have writes_not_jumps : ∀ o ∈ [Op.ldi, .add, .sub, .mul, .div], o ∉ [Op.jmp, .call, .jeq, .jne] := by decide
    exact absurd hop (writes_not_jumps i.op hwrite)
  | hlt | cmp _ _ | prn _ | push _ | pop _ | ret | divideByZero _ _ _ => simp [Instr.op] at hop

end ProgramCounter

/-- Settles O43: a step that does not fault ran the fetched instruction, all of whose bytes lie in memory, so that no
sum wraps. -/
theorem pcAfterEachStep : Obligations.PcAfterEachStep := by
  intro s t h hok
  obtain ⟨-, ⟨i, hf, heff⟩ | ⟨f, -, rfl⟩⟩ := stepWith_effect h
  · obtain ⟨-, hop, -, -, hfit⟩ := fetch_ok hf
    refine ⟨i.op, hop, heff.pc_le hfit, fun hseq => ?_, fun hret => ?_, fun hjump => ?_⟩
    · rw [nops_of_decodeOpcode Config.decided_valid hop]
      exact heff.pc_of_sequential hok hfit hseq
    · obtain rfl := eq_ret_of_op hret
      exact heff.pc_of_ret
    · obtain ⟨r, hr, htarget⟩ := heff.pc_of_jump hok hfit hjump
      exact ⟨r, opa_of_fetch hf hr, htarget⟩
  · exact absurd rfl (hok f)

/-! ## The three ways of a run -/

section Runs

variable {c : Config} {s t u : State} {m n : Nat}

/-- Every state of a run but its last is Running: no step is defined after Halted and Faulted (10_state.md R28). -/
theorem StepsIn.running_of_lt (hn : StepsIn c s n t) (hm : StepsIn c s m u) (h : m < n) : u.run = .running := by
  induction hn with
  | refl => cases h
  | tail hprev hstep ih =>
    rcases Nat.lt_succ_iff_lt_or_eq.mp h with hlt | rfl
    · exact ih hlt
    · exact hm.det hprev ▸ running_of_stepWith hstep

/-- A run stops in at most one state. -/
theorem Steps.eq_of_stopped (ht : Steps c s t) (hu : Steps c s u) (htrun : t.run ≠ .running)
    (hurun : u.run ≠ .running) : t = u := by
  obtain ⟨n, hn⟩ := ht
  obtain ⟨m, hm⟩ := hu
  rcases Nat.lt_trichotomy n m with hlt | rfl | hgt
  · exact absurd (hm.running_of_lt hn hlt) htrun
  · exact hn.det hm
  · exact absurd (hn.running_of_lt hm hgt) hurun

/-- A run that reaches no stopped state never ends: each of its states is Running, so it makes one more step. -/
theorem neverEnds_of_forall_running (h : ∀ t, Steps c s t → t.run = .running) : NeverEnds c s := by
  intro n
  induction n with
  | zero => exact ⟨s, .refl, h s ⟨0, .refl⟩⟩
  | succ n ih =>
    obtain ⟨t, ht, hrun⟩ := ih
    obtain ⟨u, hu⟩ := stepWith_next c hrun
    exact ⟨u, ht.tail hu, h u ⟨n + 1, ht.tail hu⟩⟩

theorem NeverEnds.running (h : NeverEnds c s) (ht : Steps c s t) : t.run = .running := by
  obtain ⟨n, hn⟩ := ht
  obtain ⟨u, hu, hrun⟩ := h n
  exact hn.det hu ▸ hrun

/-- Halted and Faulted are different stops of one run (70_reset_and_hazards.md R240). -/
theorem EndsWell.not_endsBadly (h : EndsWell c s) : ¬ EndsBadly c s := by
  obtain ⟨t, ht, hhalted⟩ := h
  rintro ⟨u, f, hu, hfaulted⟩
  obtain rfl := ht.eq_of_stopped hu (by simp [hhalted]) (by simp [hfaulted])
  simp [hhalted] at hfaulted

end Runs

/-- Settles O57: a run that reaches a stopped state reaches only that one and does not go on; a run that reaches none
goes on for ever. -/
theorem runsEndInOneOfThreeWays : Obligations.RunsEndInOneOfThreeWays := by
  intro c s
  refine ⟨?_, fun ⟨hwell, hbadly⟩ => hwell.not_endsBadly hbadly, ?_, ?_⟩
  · by_cases hall : ∀ t, Steps c s t → t.run = .running
    · exact .inr (.inr (neverEnds_of_forall_running hall))
    · push Not at hall
      obtain ⟨t, ht, hstopped⟩ := hall
      cases hrun : t.run with
      | running => exact absurd hrun hstopped
      | halted => exact .inl ⟨t, ht, hrun⟩
      | faulted f => exact .inr (.inl ⟨t, f, ht, hrun⟩)
  · rintro ⟨⟨t, ht, hhalted⟩, hnever⟩
    simp [hnever.running ht] at hhalted
  · rintro ⟨⟨t, f, ht, hfaulted⟩, hnever⟩
    simp [hnever.running ht] at hfaulted

end Sys2Proof.Machine
end

section
/-! PROOFS. System and data (41_system_and_data.md R140 to R143): the common faults of every instruction, and HLT, LDI
and PRN. -/

namespace Sys2Proof.Machine

/-! ## A step by what it fetches -/

section Fetched

variable {c : Config} {s : State}

theorem stepWith_of_fetch_ok (hrun : s.run = .running) {i : Instr} (hf : fetch c s = .ok i) :
    stepWith c s = exec i s := by
  rw [stepWith_running c hrun, hf]

theorem stepWith_of_fetch_error (hrun : s.run = .running) {f : FaultCause} (hf : fetch c s = .error f) :
    stepWith c s = .next (s.setRun (.faulted f)) := by
  rw [stepWith_running c hrun, hf]
  rfl

/-- A fault of the fetch is taken before any effect (60_exceptions.md R206). -/
theorem step_faultedFrom_of_fetch (hrun : s.run = .running) {f : FaultCause} (hf : fetch .decided s = .error f) :
    ∃ t, step s = .next t ∧ FaultedFrom f s t :=
  ⟨_, stepWith_of_fetch_error hrun hf, faultedFrom_setRun f s⟩

end Fetched

/-! ## The common faults -/

/-- From `firstOutOfBounds` on the last operand byte lies past address 255, and from no pc below it. -/
theorem firstOutOfBounds_add_operands (f : Format) : firstOutOfBounds f + f.operands = 256 := by
  cases f <;> rfl

/-- A register operand byte above 7 makes the instruction at pc ill-formed (30_encoding.md R83). -/
theorem State.BadOperand.illFormed {s : State} {o : Op} (h : s.BadOperand o) : (o.build s.opa s.opb).wf = false := by
  simpa only [State.BadOperand, build_illFormed_iff, isRegByte_eq_false_iff] using h

/-- The fetch meets both common faults: a byte past address 255 first, then the register bytes (60_exceptions.md
R208). -/
theorem commonFaults (o : Op) : CommonFaults o := by
  have hfirst := firstOutOfBounds_add_operands o.format
  refine ⟨fun s hrun hlow _ hat => step_faultedFrom_of_fetch hrun ?_,
    fun s hrun hbelow hop hbad => step_faultedFrom_of_fetch hrun ?_⟩
  · rcases Nat.lt_or_ge s.pc.toNat 256 with hpc | hpc
    · have hop : s.opAt = some o := hat.resolve_left hpc.ne
      exact fetch_unfit Config.decided_valid hpc hop (by omega)
    · exact fetch_offEnd hpc
  · rw [fetch_complete Config.decided_valid hop (by omega), hbad.illFormed]
    rfl

/-- Settles O16: the fetch, which is the same for every operation, meets both faults. -/
theorem commonFaultsOfEveryInstruction : Obligations.CommonFaultsOfEveryInstruction := commonFaults

/-! ## HLT, LDI, PRN -/

/-- Settles O18: HLT changes the run state and pc alone, and from Halted no step is defined. -/
theorem hltHalts : Obligations.HltHalts := by
  refine ⟨rfl, commonFaults .hlt, fun s => ⟨_, exec_hlt s, rfl, rfl, rfl, rfl, fun _ _ => rfl, fun _ => rfl, ?_⟩⟩
  intro u hu
  have hrunning := (stepDefinedExactlyWhileRunning _).mp ⟨u, hu⟩
  simp at hrunning

theorem sameRegsBut_setReg_advance (s : State) (r : Reg) (v : Byte) (n : Nat) :
    SameRegsBut [r] s ((s.setReg r v).advance n) := fun _ hq =>
  State.x_setReg_ne s v (List.ne_of_not_mem_cons hq)

/-- Settles O19: LDI writes the immediate byte itself to the register and advances pc. -/
theorem ldiLoadsImmediate : Obligations.LdiLoadsImmediate :=
  ⟨fun _ _ => rfl, commonFaults .ldi, fun r imm s => ⟨_, exec_ldi s r imm, State.x_setReg_self s r imm, rfl,
    sameRegsBut_setReg_advance s r imm 3, fun _ => rfl, rfl, rfl, rfl⟩⟩

/-- The output port shows the byte that a step appends to the output (41_system_and_data.md R143). -/
theorem prnPort_of_append {c : Config} {s t : State} {v : Byte} (hstep : stepWith c s = .next t)
    (hout : t.out = s.out ++ [v]) : prnPort c s = some v := by
  simp only [prnPort, hstep, hout, List.drop_left, List.head?_cons]

/-- Settles O20: PRN appends the register to the output and advances pc; the port of a step that fetched it shows what
was appended. -/
theorem prnEmitsRegister : Obligations.PrnEmitsRegister := by
  refine ⟨fun _ => rfl, commonFaults .prn, fun r s => ?_, fun c r s hrun hf => ?_⟩
  · exact ⟨_, exec_prn s r, rfl, rfl, rfl, rfl, fun _ _ => rfl, fun _ => rfl⟩
  · exact prnPort_of_append ((stepWith_of_fetch_ok hrun hf).trans (exec_prn s r)) rfl

end Sys2Proof.Machine
end

section
/-! PROOFS. The stack (42_stack.md R151 to R155): PUSH and POP with register 7 included, a POP after a PUSH, and the
wrap of SP. -/

namespace Sys2Proof.Machine

/-! ## SP, modulo 256 -/

/-- A decrement adds 255: 0x00 goes to 0xFF (42_stack.md R153). -/
theorem byte_sub_one_toNat (b : Byte) : (b - 1).toNat = (b.toNat + 255) % 256 := by bv_omega

section Observations

variable (s : State) (r : Reg)

/-! ## PUSH -/

/-- The state `PUSH r` leaves, by `exec_push`. -/
def State.afterPush : State :=
  ((s.setReg 7 (s.sp - 1)).setByte (pushAddr s) ((s.setReg 7 (s.sp - 1)).x r)).advance 2

theorem exec_push_eq_afterPush : exec (.push (regByte r)) s = .next (s.afterPush r) := exec_push s r

theorem x_afterPush_sp : (s.afterPush r).x 7 = s.x 7 - 1 := State.x_setReg_self s 7 _

theorem x_afterPush_ne {q : Reg} (hq : q ≠ 7) : (s.afterPush r).x q = s.x q := State.x_setReg_ne s _ hq

theorem byteAt_afterPush_self :
    (s.afterPush r).byteAt (pushAddr s) = if r = 7 then s.x 7 - 1 else s.x r :=
  (State.byteAt_setByte_self _ _ _).trans (x_decremented s r)

theorem sameMemBut_afterPush : SameMemBut (pushAddr s) s (s.afterPush r) := fun _ ha =>
  State.byteAt_setByte_ne _ _ ha

/-! ## POP -/

/-- The state `POP r` leaves, by `exec_pop`. -/
def State.afterPop : State :=
  ((s.setReg r (s.byteAt s.sp.toNat)).setReg 7 ((s.setReg r (s.byteAt s.sp.toNat)).sp + 1)).advance 2

theorem exec_pop_eq_afterPop : exec (.pop (regByte r)) s = .next (s.afterPop r) := exec_pop s r

/-- `POP R7` increments what it popped (42_stack.md R154). -/
theorem x_afterPop_seven : (s.afterPop 7).x 7 = s.byteAt (s.x 7).toNat + 1 :=
  (State.x_setReg_self _ 7 _).trans (congrArg (· + 1) (State.x_setReg_self s 7 _))

variable {r}

theorem x_afterPop_sp (hr : r ≠ 7) : (s.afterPop r).x 7 = s.x 7 + 1 :=
  (State.x_setReg_self _ 7 _).trans (congrArg (· + 1) (State.x_setReg_ne s _ hr.symm))

theorem x_afterPop_self (hr : r ≠ 7) : (s.afterPop r).x r = s.byteAt (s.x 7).toNat :=
  (State.x_setReg_ne _ _ hr).trans (State.x_setReg_self s r _)

theorem x_afterPop_ne {q : Reg} (hr : q ≠ r) (hq : q ≠ 7) : (s.afterPop r).x q = s.x q :=
  (State.x_setReg_ne _ _ hq).trans (State.x_setReg_ne s _ hr)

/-! ## POP after PUSH -/

/-- SP points at the pushed byte, so this is the byte a POP takes. -/
theorem byteAt_sp_afterPush (r : Reg) :
    (s.afterPush r).byteAt ((s.afterPush r).x 7).toNat = if r = 7 then s.x 7 - 1 else s.x r := by
  rw [x_afterPush_sp]
  exact byteAt_afterPush_self s r

/-- A register that is neither popped into nor SP keeps its value. -/
theorem x_afterPop_afterPush_ne (a : Reg) {b q : Reg} (hb : q ≠ b) (hq : q ≠ 7) :
    ((s.afterPush a).afterPop b).x q = s.x q := by
  rw [x_afterPop_ne _ hb hq, x_afterPush_ne s a hq]

/-- SP is back where it was (42_stack.md R155). -/
theorem x_afterPop_afterPush_sp (a : Reg) {b : Reg} (hb : b ≠ 7) :
    ((s.afterPush a).afterPop b).x 7 = s.x 7 := by
  rw [x_afterPop_sp _ hb, x_afterPush_sp, BitVec.sub_add_cancel]

/-- The register popped into holds the register pushed (42_stack.md R155). -/
theorem x_afterPop_afterPush_self {a b : Reg} (ha : a ≠ 7) (hb : b ≠ 7) :
    ((s.afterPush a).afterPop b).x b = s.x a := by
  rw [x_afterPop_self _ hb, byteAt_sp_afterPush, if_neg ha]

/-- `PUSH R7` stores the decremented SP and `POP R7` increments it again (42_stack.md R154, R155). -/
theorem x_afterPop_afterPush_seven : ((s.afterPush 7).afterPop 7).x 7 = s.x 7 := by
  rw [x_afterPop_seven, byteAt_sp_afterPush, if_pos rfl, BitVec.sub_add_cancel]

/-- PUSH and POP of one register restore every register (42_stack.md R155). -/
theorem x_afterPop_afterPush (r q : Reg) : ((s.afterPush r).afterPop r).x q = s.x q := by
  by_cases hq : q = 7
  · subst hq
    by_cases hr : r = 7
    · subst hr
      exact x_afterPop_afterPush_seven s
    · exact x_afterPop_afterPush_sp s r hr
  · by_cases hr : q = r
    · subst hr
      exact x_afterPop_afterPush_self s hq hq
    · exact x_afterPop_afterPush_ne s r hr hq

end Observations

/-- Settles O23: the popped byte is the pushed one, and SP goes down and up by one. -/
theorem pushThenPopRestores : Obligations.PushThenPopRestores := by
  refine ⟨fun r s => ?_, fun a b s ha hb => ?_⟩
  · have hpc : s.pc + 2 + 2 = s.pc + 4 := BitVec.add_assoc s.pc 2 2
    exact ⟨_, _, exec_push_eq_afterPush s r, exec_pop_eq_afterPop _ r, fun q _ => x_afterPop_afterPush s r q,
      byteAt_afterPush_self s r, sameMemBut_afterPush s r, ⟨rfl, rfl, rfl⟩, hpc⟩
  · refine ⟨_, _, exec_push_eq_afterPush s a, exec_pop_eq_afterPop _ b, x_afterPop_afterPush_self s ha hb,
      fun q hq => ?_⟩
    by_cases hsp : q = 7
    · subst hsp
      exact x_afterPop_afterPush_sp s a hb
    · exact x_afterPop_afterPush_ne s a (List.ne_of_not_mem_cons hq) hsp

/-- Settles O21: the cell written is the decremented SP, and register 7 is read after the decrement. -/
theorem pushStoresRegister : Obligations.PushStoresRegister := by
  refine ⟨fun _ => rfl, commonFaults .push, fun r s => ⟨_, exec_push_eq_afterPush s r, ?_, byte_sub_one_toNat _,
    byteAt_afterPush_self s r, rfl, fun q hq => ?_, sameMemBut_afterPush s r, rfl, rfl, rfl⟩⟩
  · rw [x_afterPush_sp, byte_sub_one_toNat]
  · exact x_afterPush_ne s r (List.ne_of_not_mem_cons hq)

/-- Settles O22: the register is written before SP is incremented, so for register 7 the popped byte is what is
incremented. -/
theorem popLoadsRegister : Obligations.PopLoadsRegister := by
  refine ⟨fun _ => rfl, commonFaults .pop, fun r s => ⟨_, exec_pop_eq_afterPop s r, fun hr => ⟨?_, ?_⟩, fun hr => ?_,
    rfl, fun q hq => ?_, fun _ => rfl, rfl, rfl, rfl⟩⟩
  · exact x_afterPop_self s hr
  · rw [x_afterPop_sp s hr]
    exact BitVec.toNat_add _ 1
  · subst hr
    rw [x_afterPop_seven]
    exact BitVec.toNat_add _ 1
  · obtain ⟨hr, hsp⟩ : q ≠ r ∧ q ≠ 7 := by simpa using hq
    exact x_afterPop_ne s hr hsp

/-- Settles O24: every push address and every popped address is a byte, so no access faults, and SP is computed in
bytes. -/
theorem stackWrapsWithoutFault : Obligations.StackWrapsWithoutFault := by
  have wrap_down {b : Byte} (h : b = 0x00) : b - 1 = 0xFF := by rw [h]; rfl
  have wrap_up {b : Byte} (h : b = 0xFF) : b + 1 = 0x00 := by rw [h]; rfl
  refine ⟨fun r s => ?_, fun r s => ?_, fun r s hfit => ?_, fun s => ?_⟩
  · exact ⟨_, exec_push_eq_afterPush s r, rfl, fun h => (x_afterPush_sp s r).trans (wrap_down h)⟩
  · exact ⟨_, exec_pop_eq_afterPop s r, rfl, fun hr h => (x_afterPop_sp s hr).trans (wrap_up h)⟩
  · exact ⟨_, exec_call s r hfit, rfl, fun h => (State.x_setReg_self s 7 _).trans (wrap_down h)⟩
  · exact ⟨_, exec_ret s, rfl, fun h => (State.x_setReg_self _ 7 _).trans (wrap_up h)⟩

end Sys2Proof.Machine
end

section
/-! PROOFS. The ALU instructions (43_alu.md R160 to R168): ADD, SUB, MUL and DIV, what CMP writes, and the branch that
reads it. -/

namespace Sys2Proof.Machine

/-! ## ADD, SUB, MUL, DIV -/

/-- What an ALU instruction with a result leaves (43_alu.md R162 to R165): the result byte in `x[a]`, whose value is
`n`, pc past the three bytes, and the rest of the state as it was. -/
theorem arithLeaves_setReg_advance {a : Reg} {v : Byte} {n : Nat} (hv : v.toNat = n) (s : State) :
    ArithLeaves a n s ((s.setReg a v).advance 3) := by
  refine ⟨?_, rfl, sameRegsBut_setReg_advance s a v 3, fun _ => rfl, rfl, rfl, rfl⟩
  rw [State.x_advance, State.x_setReg_self, hv]

/-- Subtraction of bytes is the exact integer difference modulo 256 (43_alu.md R163). -/
theorem byte_sub_toNat (a b : Byte) : (a - b).toNat = (((a.toNat : Int) - (b.toNat : Int)) % 256).toNat := by
  rw [BitVec.toNat_sub]
  omega

/-- A zero divisor stops the machine and changes nothing else (43_alu.md R165). -/
theorem div_faultedFrom {s : State} {b : Reg} (h : s.x b = 0) (a : Reg) :
    ∃ t, exec (.div (regByte a) (regByte b)) s = .next t ∧ FaultedFrom .divisionByZero s t :=
  ⟨_, exec_div_zero s a b h, faultedFrom_setRun .divisionByZero s⟩

/-- Settles O25: bytes are added modulo 256. -/
theorem addWraps : Obligations.AddWraps :=
  ⟨fun _ _ => rfl, commonFaults .add,
    fun a b s => ⟨_, exec_add s a b, arithLeaves_setReg_advance (BitVec.toNat_add (s.x a) (s.x b)) s⟩⟩

/-- Settles O26: bytes are subtracted modulo 256. -/
theorem subWraps : Obligations.SubWraps :=
  ⟨fun _ _ => rfl, commonFaults .sub,
    fun a b s => ⟨_, exec_sub s a b, arithLeaves_setReg_advance (byte_sub_toNat (s.x a) (s.x b)) s⟩⟩

/-- Settles O27: bytes are multiplied modulo 256. -/
theorem mulWraps : Obligations.MulWraps :=
  ⟨fun _ _ => rfl, commonFaults .mul,
    fun a b s => ⟨_, exec_mul s a b, arithLeaves_setReg_advance (BitVec.toNat_mul (s.x a) (s.x b)) s⟩⟩

/-- Settles O28: division of bytes is the floor quotient of their values, and a zero divisor faults instead. -/
theorem divFloorsOrFaults : Obligations.DivFloorsOrFaults :=
  ⟨fun _ _ => rfl, commonFaults .div,
    fun a b s hb => ⟨_, exec_div s a b hb, arithLeaves_setReg_advance BitVec.toNat_udiv s⟩,
    fun a _ _ hb => div_faultedFrom hb a⟩

/-! ## CMP -/

theorem compareFlags_self (a : Byte) : compareFlags a a = 0b00000001 := if_pos rfl

theorem compareFlags_of_gt {a b : Byte} (h : a.toNat > b.toNat) : compareFlags a b = 0b00000010 := by
  rw [compareFlags, if_neg (BitVec.toNat_ne.mpr h.ne'), if_pos h]

theorem compareFlags_of_lt {a b : Byte} (h : a.toNat < b.toNat) : compareFlags a b = 0b00000100 := by
  rw [compareFlags, if_neg (BitVec.toNat_ne.mpr h.ne), if_neg h.not_gt]

/-- The three bytes CMP can write (43_alu.md R166): equal, greater and less exclude each other and leave nothing out. -/
theorem compareFlags_cases (a b : Byte) :
    (a = b ∧ compareFlags a b = 0x01) ∨ (a ≠ b ∧ compareFlags a b = 0x02) ∨ (a ≠ b ∧ compareFlags a b = 0x04) := by
  rcases Nat.lt_trichotomy a.toNat b.toNat with hlt | heq | hgt
  · exact .inr (.inr ⟨BitVec.toNat_ne.mpr hlt.ne, compareFlags_of_lt hlt⟩)
  · obtain rfl := BitVec.eq_of_toNat_eq heq
    exact .inl ⟨rfl, compareFlags_self a⟩
  · exact .inr (.inl ⟨BitVec.toNat_ne.mpr hgt.ne', compareFlags_of_gt hgt⟩)

/-- E after a CMP tells whether the operands were equal, whatever FL was before (10_state.md R27). -/
theorem flagE_compareFlags (a b : Byte) : flagE (compareFlags a b) = decide (a = b) := by
  rcases compareFlags_cases a b with ⟨hab, hfl⟩ | ⟨hab, hfl⟩ | ⟨hab, hfl⟩ <;> rw [hfl]
  · exact (decide_eq_true hab).symm
  · exact (decide_eq_false hab).symm
  · exact (decide_eq_false hab).symm

/-- Settles O29: the whole byte is written, and FL and pc are all that changes. -/
theorem cmpWritesWholeFlags : Obligations.CmpWritesWholeFlags := by
  refine ⟨fun _ _ => rfl, commonFaults .cmp, fun a b s => ⟨_, exec_cmp s a b, fun heq => ?_, compareFlags_of_gt,
    compareFlags_of_lt, rfl, fun _ _ => rfl, fun _ => rfl, rfl, rfl⟩⟩
  rw [State.fl_advance, State.fl_setFl, BitVec.eq_of_toNat_eq heq, compareFlags_self]

/-! ## The same register twice -/

/-- Settles O30: both operands are read before the write, so each result is that of a byte with itself. -/
theorem sameRegisterTwice : Obligations.SameRegisterTwice := by
  intro a s
  refine ⟨⟨_, exec_add s a a, ?_⟩, ⟨_, exec_sub s a a, ?_⟩, ⟨_, exec_mul s a a, ?_⟩,
    fun hne => ⟨_, exec_div s a a hne, ?_, rfl⟩, fun hzero => div_faultedFrom hzero a,
    ⟨_, exec_cmp s a a, compareFlags_self (s.x a)⟩⟩
  all_goals rw [State.x_advance, State.x_setReg_self]
  · rw [BitVec.toNat_add, Nat.two_mul]
  · exact BitVec.sub_self (s.x a)
  · exact BitVec.toNat_mul (s.x a) (s.x a)
  · exact BitVec.udiv_self.trans (if_neg (by simpa using hne))

/-! ## A branch after CMP -/

/-- Settles O37: JEQ and JNE read E alone, which CMP has set from its operands. -/
theorem compareThenBranch : Obligations.CompareThenBranch := by
  intro a b r s
  have hpc : s.pc + 3 + 2 = s.pc + 5 := BitVec.add_assoc s.pc 3 2
  refine ⟨_, _, _, exec_cmp s a b, exec_jeq _ r, exec_jne _ r, fun heq => ?_, fun hne => ?_⟩
  all_goals rw [State.fl_advance, State.fl_setFl, flagE_compareFlags]
  · rw [decide_eq_true heq]
    exact ⟨byteToPc_toNat (s.x r), hpc⟩
  · rw [decide_eq_false hne]
    exact ⟨hpc, byteToPc_toNat (s.x r)⟩

/-! ## FL over all steps -/

/-- CMP writes FL and advances pc, no other instruction touches FL (43_alu.md R168). -/
theorem Effect.fl_cases {s t : State} {i : Instr} (h : Effect s i t) :
    (∃ a b, i = .cmp (regByte a) (regByte b) ∧ t = (s.setFl (compareFlags (s.x a) (s.x b))).advance 3) ∨
    (i.op ≠ .cmp ∧ t.fl = s.fl) := by
  cases h with
  | cmp a b => exact .inl ⟨a, b, rfl, rfl⟩
  | write _ hop _ => exact .inr ⟨ne_of_mem_of_not_mem hop (by decide), rfl⟩
  | branch taken hop _ _ => exact .inr ⟨ne_of_mem_of_not_mem hop (by decide), by cases taken <;> rfl⟩
  | hlt | prn _ | push _ | pop _ | call _ _ | ret | divideByZero _ _ _ | callOutOfBounds _ _ =>
    exact .inr ⟨by simp [Instr.op], rfl⟩

/-- Settles O38, from what each instruction does to FL. -/
theorem flagsWrittenOnlyByCmp : Obligations.FlagsWrittenOnlyByCmp := by
  intro s t h
  obtain ⟨-, ⟨i, hf, heff⟩ | ⟨f, -, rfl⟩⟩ := stepWith_effect h
  · obtain ⟨-, hop, -⟩ := fetch_ok hf
    rcases heff.fl_cases with ⟨a, b, rfl, rfl⟩ | ⟨hne, hfl⟩
    · have hvalues := (compareFlags_cases (s.x a) (s.x b)).imp And.right (Or.imp And.right And.right)
      exact ⟨fun _ => ⟨hop, hvalues⟩, fun _ _ => rfl⟩
    · exact ⟨fun hchanged => absurd hfl hchanged,
        fun hcmp => absurd (Option.some.inj (hop.symm.trans hcmp)) hne⟩
  · exact ⟨fun hchanged => absurd rfl hchanged, fun _ _ => rfl⟩

end Sys2Proof.Machine
end

section
/-! PROOFS. Control transfer (44_control_transfer.md R180 to R190): CALL and RET, a RET after a CALL, and the three
jumps. -/

namespace Sys2Proof.Machine

section Observations

variable (s : State) (r : Reg)

/-! ## CALL -/

/-- The state `CALL r` leaves where its return address fits, by `exec_call`. -/
def State.afterCall : State :=
  ((s.setReg 7 (s.sp - 1)).setByte (pushAddr s) (BitVec.ofNat 8 (s.pc.toNat + 2))).jump
    ((s.setReg 7 (s.sp - 1)).x r)

theorem exec_call_eq_afterCall (hfit : s.pc.toNat + 2 ≤ 255) :
    exec (.call (regByte r)) s = .next (s.afterCall r) := exec_call s r hfit

/-- The target is read after the decrement of SP (44_control_transfer.md R183). -/
theorem pc_afterCall : (s.afterCall r).pc.toNat = (if r = 7 then s.x 7 - 1 else s.x r).toNat := by
  rw [State.afterCall, State.pc_jump, byteToPc_toNat, x_decremented]

theorem x_afterCall_sp : (s.afterCall r).x 7 = s.x 7 - 1 := State.x_setReg_self s 7 _

theorem x_afterCall_ne {q : Reg} (hq : q ≠ 7) : (s.afterCall r).x q = s.x q := State.x_setReg_ne s _ hq

theorem sameMemBut_afterCall : SameMemBut (pushAddr s) s (s.afterCall r) := fun _ ha =>
  State.byteAt_setByte_ne _ _ ha

/-- The byte pushed is the whole return address (44_control_transfer.md R190). -/
theorem byteAt_afterCall_self (hfit : s.pc.toNat + 2 ≤ 255) :
    ((s.afterCall r).byteAt (pushAddr s)).toNat = s.pc.toNat + 2 := by
  rw [State.afterCall, State.byteAt_jump, State.byteAt_setByte_self, BitVec.toNat_ofNat]
  omega

/-- SP points at the return address, so this is the byte a RET takes. -/
theorem byteAt_sp_afterCall (hfit : s.pc.toNat + 2 ≤ 255) :
    ((s.afterCall r).byteAt ((s.afterCall r).x 7).toNat).toNat = s.pc.toNat + 2 := by
  rw [x_afterCall_sp]
  exact byteAt_afterCall_self s r hfit

/-! ## RET -/

/-- The state RET leaves, by `exec_ret`. -/
def State.afterRet : State := (s.jump (s.byteAt s.sp.toNat)).setReg 7 (s.sp + 1)

theorem exec_ret_eq_afterRet : exec .ret s = .next s.afterRet := exec_ret s

theorem pc_afterRet : s.afterRet.pc.toNat = (s.byteAt (s.x 7).toNat).toNat := byteToPc_toNat _

theorem x_afterRet_sp : s.afterRet.x 7 = s.x 7 + 1 := State.x_setReg_self _ 7 _

theorem x_afterRet_ne {q : Reg} (hq : q ≠ 7) : s.afterRet.x q = s.x q := State.x_setReg_ne _ _ hq

/-! ## JMP, JEQ, JNE -/

/-- The state a jump to `x[r]` leaves, taken or not, by `exec_jmp`, `exec_jeq` and `exec_jne`. -/
def State.afterBranch (taken : Bool) : State := if taken then s.jump (s.x r) else s.advance 2

theorem exec_jmp_eq_afterBranch : exec (.jmp (regByte r)) s = .next (s.afterBranch r true) := exec_jmp s r

theorem exec_jeq_eq_afterBranch : exec (.jeq (regByte r)) s = .next (s.afterBranch r (flagE s.fl)) := exec_jeq s r

theorem exec_jne_eq_afterBranch : exec (.jne (regByte r)) s = .next (s.afterBranch r (!flagE s.fl)) := exec_jne s r

theorem pc_afterBranch_taken {taken : Bool} (h : taken = true) :
    (s.afterBranch r taken).pc.toNat = (s.x r).toNat := by
  subst h
  exact byteToPc_toNat (s.x r)

theorem pc_afterBranch_untaken {taken : Bool} (h : taken = false) : (s.afterBranch r taken).pc = s.pc + 2 := by
  subst h
  rfl

/-- A jump changes pc alone (44_control_transfer.md R180). -/
theorem afterBranch_frame (taken : Bool) :
    SameRegsBut [] s (s.afterBranch r taken) ∧ SameMem s (s.afterBranch r taken) ∧
    SameControl s (s.afterBranch r taken) := by
  cases taken with
  | true => exact ⟨fun _ _ => rfl, fun _ => rfl, rfl, rfl, rfl⟩
  | false => exact ⟨fun _ _ => rfl, fun _ => rfl, rfl, rfl, rfl⟩

end Observations

/-- Settles O31: the return address is checked first, then pushed whole, then the target is read. -/
theorem callPushesReturnAddress : Obligations.CallPushesReturnAddress := by
  refine ⟨fun _ => rfl, commonFaults .call, fun r s hfit => ⟨_, exec_call_eq_afterCall s r hfit, ?_,
    byte_sub_one_toNat _, byteAt_afterCall_self s r hfit, pc_afterCall s r, fun q hq => ?_,
    sameMemBut_afterCall s r, rfl, rfl, rfl⟩, fun r s hunfit => ?_⟩
  · rw [x_afterCall_sp, byte_sub_one_toNat]
  · exact x_afterCall_ne s r (List.ne_of_not_mem_cons hq)
  · exact ⟨_, exec_call_unfit s r hunfit, faultedFrom_setRun .outOfBounds s⟩

/-- Settles O32: pc is the popped byte, not advanced further, and SP is incremented. -/
theorem retPopsPc : Obligations.RetPopsPc := by
  refine ⟨rfl, commonFaults .ret, fun s => ⟨_, exec_ret_eq_afterRet s, pc_afterRet s, ?_, fun q hq => ?_,
    fun _ => rfl, rfl, rfl, rfl⟩⟩
  · rw [x_afterRet_sp]
    exact BitVec.toNat_add _ 1
  · exact x_afterRet_ne s (List.ne_of_not_mem_cons hq)

/-- Settles O33: RET takes the byte CALL pushed, and SP goes down and up by one. -/
theorem callThenRetReturns : Obligations.CallThenRetReturns := by
  intro r s hr hfit
  refine ⟨_, exec_call_eq_afterCall s r hfit, ?_, fun u hsp hbyte => ⟨_, exec_ret_eq_afterRet u, ?_, ?_⟩⟩
  · rw [pc_afterCall, if_neg hr]
  · rw [pc_afterRet, hbyte, byteAt_sp_afterCall s r hfit]
  · rw [x_afterRet_sp, hsp, x_afterCall_sp, BitVec.sub_add_cancel]

/-- Settles O34: JMP is the jump always taken. -/
theorem jmpSetsPc : Obligations.JmpSetsPc :=
  ⟨fun _ => rfl, commonFaults .jmp,
    fun r s => ⟨_, exec_jmp_eq_afterBranch s r, pc_afterBranch_taken s r rfl, afterBranch_frame s r true⟩⟩

/-- Settles O35: JEQ is the jump taken on E, bit 0 of FL. -/
theorem jeqJumpsIffEqual : Obligations.JeqJumpsIffEqual :=
  ⟨fun _ => rfl, commonFaults .jeq,
    fun r s => ⟨_, exec_jeq_eq_afterBranch s r, pc_afterBranch_taken s r, pc_afterBranch_untaken s r,
      afterBranch_frame s r (flagE s.fl)⟩⟩

/-- Settles O36: JNE is the jump taken on E clear, whatever G and L are. -/
theorem jneJumpsIffNotEqual : Obligations.JneJumpsIffNotEqual := by
  refine ⟨fun _ => rfl, commonFaults .jne, fun r s => ⟨_, exec_jne_eq_afterBranch s r, fun hclear => ?_, fun hset => ?_,
    afterBranch_frame s r (!flagE s.fl)⟩⟩
  · exact pc_afterBranch_taken s r (congrArg not hclear)
  · exact pc_afterBranch_untaken s r (congrArg not hset)

end Sys2Proof.Machine
end

section
/-! PROOFS. Exceptions (60_exceptions.md R200 to R209): the status ports, that a fault changes the run state alone, the
exact cases of each cause, and that no run both halts and faults. -/

namespace Sys2Proof.Machine

/-! ## The ports and the ALU -/

/-- Settles O56, run state by run state. -/
theorem statusPortsFollowRunState : Obligations.StatusPortsFollowRunState := by
  intro s
  cases hrun : s.run with
  | running | halted => simp [State.haltedPort, State.faultedPort, State.faultCodePort, hrun]
  | faulted f =>
    cases f <;> simp [State.haltedPort, State.faultedPort, State.faultCodePort, FaultCause.code, hrun]

/-- The ALU is unsupported exactly outside its five selects (40_fetch_decode_execute_loop.md R124, R126). -/
theorem alu_eq_unsupported_iff (sel : BitVec 4) (a b : Byte) :
    alu sel a b = .unsupported ↔ sel ∉ [selAdd, selSub, selMul, selDiv, selCmp] := by
  constructor
  · intro h hsel
    simp only [List.mem_cons, List.not_mem_nil, or_false] at hsel
    rcases hsel with rfl | rfl | rfl | rfl | rfl
    · simp at h
    · simp at h
    · simp at h
    · rw [alu_div] at h
      split at h <;> cases h
    · simp at h
  · intro hsel
    simp only [List.mem_cons, List.not_mem_nil, or_false, not_or] at hsel
    obtain ⟨hadd, hsub, hmul, hdiv, hcmp⟩ := hsel
    rw [alu, if_neg hadd, if_neg hsub, if_neg hmul, if_neg hdiv, if_neg hcmp]

/-! ## What a step that faults has done -/

section Faulting

variable {s t : State} {f : FaultCause}

/-- Of the instructions only DIV and CALL fault, DIV by a zero divisor and CALL where its return address does not fit,
and they change the run state alone (43_alu.md R165, 44_control_transfer.md R190). -/
theorem Effect.faulted_cases {i : Instr} (h : Effect s i t) (hs : s.run = .running) (hf : t.run = .faulted f) :
    t = s.setRun (.faulted f) ∧
    ((f = .divisionByZero ∧ ∃ a b, i = .div (regByte a) (regByte b) ∧ s.x b = 0) ∨
     (f = .outOfBounds ∧ ∃ r, i = .call (regByte r) ∧ 255 < s.pc.toNat + 2)) := by
  cases h with
  | divideByZero a b hzero =>
    obtain rfl : FaultCause.divisionByZero = f := by simpa using hf
    exact ⟨rfl, .inl ⟨rfl, a, b, rfl, hzero⟩⟩
  | callOutOfBounds r hunfit =>
    obtain rfl : FaultCause.outOfBounds = f := by simpa using hf
    exact ⟨rfl, .inr ⟨rfl, r, rfl, hunfit⟩⟩
  | branch taken _ _ _ => cases taken <;> simp [hs] at hf
  | hlt | write _ _ _ | cmp _ _ | prn _ | push _ | pop _ | call _ _ | ret => simp [hs] at hf

/-- A step that faults raises what the fetch met, or is that of a DIV or a CALL; whichever it is, the run state is all
that changes (60_exceptions.md R206). -/
theorem stepWith_faulted_cases {c : Config} (h : stepWith c s = .next t) (hf : t.run = .faulted f) :
    t = s.setRun (.faulted f) ∧
    (fetch c s = .error f ∨
     (f = .divisionByZero ∧ ∃ a b, fetch c s = .ok (.div (regByte a) (regByte b)) ∧ s.x b = 0) ∨
     (f = .outOfBounds ∧ ∃ r, fetch c s = .ok (.call (regByte r)) ∧ 255 < s.pc.toNat + 2)) := by
  obtain ⟨hrun, ⟨i, hfetch, heff⟩ | ⟨g, hfetch, rfl⟩⟩ := stepWith_effect h
  · obtain ⟨ht, ⟨hcause, a, b, rfl, hzero⟩ | ⟨hcause, r, rfl, hunfit⟩⟩ := heff.faulted_cases hrun hf
    · exact ⟨ht, .inr (.inl ⟨hcause, a, b, hfetch, hzero⟩)⟩
    · exact ⟨ht, .inr (.inr ⟨hcause, r, hfetch, hunfit⟩)⟩
  · obtain rfl : g = f := by simpa using hf
    exact ⟨rfl, .inl hfetch⟩

theorem faultedFrom_of_step (h : step s = .next t) (hf : t.run = .faulted f) : FaultedFrom f s t := by
  obtain ⟨rfl, -⟩ := stepWith_faulted_cases h hf
  exact faultedFrom_setRun f s

/-- No step follows a fault (60_exceptions.md R209). -/
theorem step_ne_next_of_faulted (hf : t.run = .faulted f) (u : State) : step t ≠ .next u := fun h => by
  simp [running_of_stepWith h] at hf

/-- The next state is the only one, so a fault shown of some next state is a fault of this one. -/
theorem run_of_faultedFrom (h : step s = .next t) (hf : ∃ u, step s = .next u ∧ FaultedFrom f s u) :
    t.run = .faulted f := by
  obtain ⟨u, hu, hrun, -⟩ := hf
  obtain rfl : t = u := Host.Outcome.next.inj (h.symm.trans hu)
  exact hrun

/-- Settles O10: a fault is the run state set and nothing else. -/
theorem faultsArePrecise : Obligations.FaultsArePrecise := by
  intro s t f h hf
  refine ⟨faultedFrom_of_step h hf, ?_, ?_, step_ne_next_of_faulted hf⟩
  · simp [State.faultedPort, hf]
  · simp [State.faultCodePort, hf]

/-- Settles O14: the fetch, DIV and CALL raise the other causes. -/
theorem unsupportedOperationUnreachable : Obligations.UnsupportedOperationUnreachable := by
  refine ⟨alu_eq_unsupported_iff, fun s t h hf => ?_⟩
  obtain ⟨-, hfetch | ⟨hcause, -⟩ | ⟨hcause, -⟩⟩ := stepWith_faulted_cases h hf
  · simpa using fetch_error hfetch
  · cases hcause
  · cases hcause

/-! ## What the fetch meets -/

/-- The converse of `State.BadOperand.illFormed`: the fetch refuses an instruction for no other reason. -/
theorem State.badOperand_of_illFormed {o : Op} (h : (o.build s.opa s.opb).wf = false) : s.BadOperand o := by
  simpa only [State.BadOperand, build_illFormed_iff, isRegByte_eq_false_iff] using h

/-- A fetch that fails, in the order of its checks (60_exceptions.md R208). -/
theorem fetch_error_cases (h : fetch .decided s = .error f) :
    (f = .outOfBounds ∧ (256 ≤ s.pc.toNat ∨ ∃ o, s.opAt = some o ∧ 256 ≤ s.pc.toNat + o.format.operands)) ∨
    (f = .illegalInstruction ∧ s.pc.toNat < 256 ∧
      (s.opAt = none ∨ ∃ o, s.opAt = some o ∧ s.pc.toNat + o.format.operands < 256 ∧ s.BadOperand o)) := by
  rcases Nat.lt_or_ge s.pc.toNat 256 with hpc | hoff
  · cases hop : s.opAt with
    | none =>
      rw [fetch_illegalOpcode hpc hop] at h
      exact .inr ⟨(Except.error.inj h).symm, hpc, .inl rfl⟩
    | some o =>
      rcases Nat.lt_or_ge (s.pc.toNat + o.format.operands) 256 with hfit | hunfit
      · rw [fetch_complete Config.decided_valid hop hfit] at h
        split at h
        · cases h
        · have hbad : s.BadOperand o := State.badOperand_of_illFormed (Bool.eq_false_of_not_eq_true ‹_›)
          exact .inr ⟨(Except.error.inj h).symm, hpc, .inr ⟨o, rfl, hfit, hbad⟩⟩
      · rw [fetch_unfit Config.decided_valid hpc hop hunfit] at h
        exact .inl ⟨(Except.error.inj h).symm, .inr ⟨o, rfl, hunfit⟩⟩
  · rw [fetch_offEnd hoff] at h
    exact .inl ⟨(Except.error.inj h).symm, .inl hoff⟩

/-- A byte that names a register is one of 0 to 7 (30_encoding.md R82, R83). -/
theorem exists_eq_regByte_iff {b : Byte} : (∃ r, b = regByte r) ↔ b.toNat ≤ 7 := by
  rw [← isRegByte_iff, isRegByte, decide_eq_true_iff, Nat.lt_succ_iff]

@[simp] theorem isRegByte_regByte (r : Reg) : isRegByte (regByte r) = true := isRegByte_iff.mpr ⟨r, rfl⟩

theorem fetch_eq_ok_iff {i : Instr} : fetch .decided s = .ok i ↔
    s.opAt = some i.op ∧ s.pc.toNat + i.op.format.operands < 256 ∧ i.op.build s.opa s.opb = i ∧ i.WellFormed := by
  constructor
  · intro h
    obtain ⟨-, hop, hbuild, hw, hfit⟩ := fetch_ok h
    exact ⟨hop, hfit, hbuild.symm, hw⟩
  · rintro ⟨hop, hfit, hbuild, hw⟩
    exact hbuild ▸ fetchWith_eq_ok Config.decided_valid hop hfit (hbuild.symm ▸ hw)

theorem wellFormed_div (a b : Reg) : (Instr.div (regByte a) (regByte b)).WellFormed := by
  simp [Instr.WellFormed, Instr.wf, Instr.regBytes, Instr.op, Op.format, Instr.operandBytes]

theorem wellFormed_call (r : Reg) : (Instr.call (regByte r)).WellFormed := by
  simp [Instr.WellFormed, Instr.wf, Instr.regBytes, Instr.op, Op.format, Instr.operandBytes]

theorem fetch_eq_div_iff {a b : Reg} : fetch .decided s = .ok (.div (regByte a) (regByte b)) ↔
    s.opAt = some .div ∧ s.pc.toNat ≤ 253 ∧ s.opa = regByte a ∧ s.opb = regByte b := by
  have hpc : s.pc.toNat + 2 < 256 ↔ s.pc.toNat ≤ 253 := by omega
  rw [fetch_eq_ok_iff, and_iff_left (wellFormed_div a b)]
  simp only [Instr.op, Op.format, Format.operands, Op.build, hpc, Instr.div.injEq]

theorem fetch_eq_call_iff {r : Reg} : fetch .decided s = .ok (.call (regByte r)) ↔
    s.opAt = some .call ∧ s.pc.toNat ≤ 254 ∧ s.opa = regByte r := by
  have hpc : s.pc.toNat + 1 < 256 ↔ s.pc.toNat ≤ 254 := by omega
  rw [fetch_eq_ok_iff, and_iff_left (wellFormed_call r)]
  simp only [Instr.op, Op.format, Format.operands, Op.build, hpc, Instr.call.injEq]

/-! ## The cases of each cause -/

/-- Settles O12: the fetch never meets this cause, and of the instructions only DIV raises it. -/
theorem divisionByZeroExactly : Obligations.DivisionByZeroExactly := by
  intro s t h
  refine ⟨⟨fun hf => ?_, ?_⟩, fun hf => ⟨faultedFrom_of_step h hf, step_ne_next_of_faulted hf⟩⟩
  · obtain ⟨-, hfetch | ⟨-, a, b, hfetch, hzero⟩ | ⟨hcause, -⟩⟩ := stepWith_faulted_cases h hf
    · simpa using fetch_error hfetch
    · obtain ⟨hop, hpc, hopa, hopb⟩ := fetch_eq_div_iff.mp hfetch
      exact ⟨hop, hpc, a, b, hopa, hopb, hzero⟩
    · cases hcause
  · rintro ⟨hop, hpc, a, b, hopa, hopb, hzero⟩
    have hstep := stepWith_of_fetch_ok (running_of_stepWith h) (fetch_eq_div_iff.mpr ⟨hop, hpc, hopa, hopb⟩)
    exact run_of_faultedFrom h ⟨_, hstep.trans (exec_div_zero s a b hzero), faultedFrom_setRun _ s⟩

/-- Settles O13: the fetch alone meets this cause, and in these two cases; they are the second common fault and the
byte that is no opcode. -/
theorem illegalInstructionExactly : Obligations.IllegalInstructionExactly := by
  intro s t _ h
  have hrun := running_of_stepWith h
  refine ⟨⟨fun hf => ?_, ?_⟩, faultedFrom_of_step h⟩
  · obtain ⟨-, hfetch | ⟨hcause, -⟩ | ⟨hcause, -⟩⟩ := stepWith_faulted_cases h hf
    · obtain ⟨hcause, -⟩ | ⟨-, hpc, hnone | ⟨o, hop, hfit, hbad⟩⟩ := fetch_error_cases hfetch
      · cases hcause
      · exact ⟨Nat.le_of_lt_succ hpc, .inl hnone⟩
      · have hfirst := firstOutOfBounds_add_operands o.format
        exact ⟨Nat.le_of_lt_succ hpc, .inr ⟨o, hop, by omega, hbad⟩⟩
    · cases hcause
    · cases hcause
  · rintro ⟨hpc, hnone | ⟨o, hop, hfit, hbad⟩⟩
    · exact run_of_faultedFrom h ⟨_, step_illegalOpcode hrun (Nat.lt_succ_of_le hpc) hnone, faultedFrom_setRun _ s⟩
    · obtain ⟨-, hillegal⟩ := commonFaults o
      exact run_of_faultedFrom h (hillegal s hrun hfit hop hbad)

/-- Settles O11: the first three cases are the fetch past address 255, the first common fault; the fourth is CALL's
return address 256. -/
theorem outOfBoundsExactly : Obligations.OutOfBoundsExactly := by
  intro s t hpc h
  have hrun := running_of_stepWith h
  refine ⟨⟨fun hf => ?_, ?_⟩, faultedFrom_of_step h⟩
  · obtain ⟨-, hfetch | ⟨hcause, -⟩ | ⟨-, r, hfetch, hunfit⟩⟩ := stepWith_faulted_cases h hf
    · obtain ⟨-, hoff | ⟨o, hop, hunfit⟩⟩ | ⟨hcause, -⟩ := fetch_error_cases hfetch
      · exact .inl (le_antisymm hpc hoff)
      · have := operands_le_two o.format
        by_cases hend : s.pc.toNat = 256
        · exact .inl hend
        · exact .inr ⟨o, hop, by omega⟩
      · cases hcause
    · cases hcause
    · obtain ⟨hop, hpc', hopa⟩ := fetch_eq_call_iff.mp hfetch
      exact .inr ⟨.call, hop, .inr (.inr ⟨rfl, exists_eq_regByte_iff.mp ⟨r, hopa⟩, by omega⟩)⟩
  · have unfit (o : Op) (hlow : firstOutOfBounds o.format ≤ s.pc.toNat)
        (hat : s.pc.toNat = 256 ∨ s.opAt = some o) : t.run = .faulted .outOfBounds := by
      obtain ⟨hoob, -⟩ := commonFaults o
      exact run_of_faultedFrom h (hoob s hrun hlow hpc hat)
    rintro (hend | ⟨o, hop, hcase⟩)
    · exact unfit .hlt hend.ge (.inl hend)
    · have hfirst := firstOutOfBounds_add_operands o.format
      rcases hcase with ⟨hoperands, hat⟩ | ⟨hoperands, hat⟩ | ⟨rfl, hreg, hat⟩
      · exact unfit o (by omega) (.inr hop)
      · exact unfit o (by omega) (.inr hop)
      · obtain ⟨r, hopa⟩ := exists_eq_regByte_iff.mpr hreg
        have hstep := stepWith_of_fetch_ok hrun (fetch_eq_call_iff.mpr ⟨hop, hat.le, hopa⟩)
        exact run_of_faultedFrom h ⟨_, hstep.trans (exec_call_unfit s r (by omega)), faultedFrom_setRun _ s⟩

end Faulting

/-- Settles O51: a run stops in at most one state. -/
theorem haltedRunsNeverFault : Obligations.HaltedRunsNeverFault := fun _ _ h => h.not_endsBadly

end Sys2Proof.Machine
end

section
/-! PROOFS. Reset and hazards (70_reset_and_hazards.md R240 to R243): the state a run of bounded length is left in, and
what the run under fuel reports of it. -/

namespace Sys2Proof.Machine

section BoundedRun

variable {c : Config} {s t : State} {k n : Nat}

/-! ## The state a bounded run is left in -/

/-- A run of at most `k` steps from `s` is left in `t`: it has stopped there, or has made all its `k` steps. -/
def LeftIn (c : Config) (k : Nat) (s t : State) : Prop := ∃ n ≤ k, StepsIn c s n t ∧ (t.run = .running → n = k)

theorem leftIn_iff_of_stopped (h : t.run ≠ .running) : LeftIn c k s t ↔ ∃ n ≤ k, StepsIn c s n t := by
  simp [LeftIn, h]

theorem leftIn_iff_of_running (h : t.run = .running) : LeftIn c k s t ↔ StepsIn c s k t := by
  constructor
  · rintro ⟨n, -, hn, hall⟩
    exact hall h ▸ hn
  · exact fun hk => ⟨k, le_rfl, hk, fun _ => rfl⟩

/-- Every bounded run is left somewhere: while it is Running it makes one more step (10_state.md R28). -/
theorem exists_leftIn (c : Config) (k : Nat) (s : State) : ∃ t, LeftIn c k s t := by
  induction k with
  | zero => exact ⟨s, 0, le_rfl, .refl, fun _ => rfl⟩
  | succ k ih =>
    obtain ⟨t, ht⟩ := ih
    by_cases hrun : t.run = .running
    · obtain ⟨u, hu⟩ := stepWith_next c hrun
      exact ⟨u, k + 1, le_rfl, ((leftIn_iff_of_running hrun).mp ht).tail hu, fun _ => rfl⟩
    · obtain ⟨n, hn, hsteps⟩ := (leftIn_iff_of_stopped hrun).mp ht
      exact ⟨t, (leftIn_iff_of_stopped hrun).mpr ⟨n, Nat.le_succ_of_le hn, hsteps⟩⟩

/-! ## What the run under fuel reports -/

/-- Steps made use up as much fuel. -/
theorem StepsIn.runFor_add (h : StepsIn c s n t) (k : Nat) : runFor c (n + k) s = runFor c k t := by
  induction h generalizing k with
  | refl => rw [Nat.zero_add]
  | tail _ hstep ih => rw [Nat.succ_add_eq_add_succ, ih, runFor_next hstep]

theorem LeftIn.runFor_eq (h : LeftIn c k s t) : runFor c k s = .of t := by
  obtain ⟨n, hn, hsteps, hall⟩ := h
  obtain ⟨j, rfl⟩ := Nat.exists_eq_add_of_le hn
  rw [hsteps.runFor_add]
  by_cases hrun : t.run = .running
  · obtain rfl : j = 0 := by simpa using hall hrun
    exact runFor_zero c t
  · exact runFor_stopped c hrun j

/-- The report is that of the state the run is left in. -/
theorem runFor_eq_iff {o : RunOutcome} : runFor c k s = o ↔ ∃ u, .of u = o ∧ LeftIn c k s u := by
  constructor
  · intro h
    obtain ⟨u, hu⟩ := exists_leftIn c k s
    exact ⟨u, hu.runFor_eq.symm.trans h, hu⟩
  · rintro ⟨u, rfl, hu⟩
    exact hu.runFor_eq

end BoundedRun

/-- Settles O58: each report names the state the run is left in, which it has stopped in after at most `k` steps, or is
Running in after all `k`. -/
theorem boundedRunReportsExactly : Obligations.BoundedRunReportsExactly := by
  intro c k s t
  simp only [runFor_eq_iff, RunOutcome.of_eq_halted, RunOutcome.of_eq_faulted, RunOutcome.of_eq_stillRunning,
    and_assoc, exists_eq_left]
  exact ⟨and_congr_right fun h => leftIn_iff_of_stopped (by simp [h]),
    fun f => and_congr_right fun h => leftIn_iff_of_stopped (by simp [h]),
    and_congr_right leftIn_iff_of_running⟩

end Sys2Proof.Machine
end
